-- ==== Sys2Proof/Word.lean ====
section
/-! DEFINITION. The two widths of the core (spec/00_scope.md R6, R8): bytes and 16-bit words. -/

namespace Sys2Proof

/-- `byte` of R8: the width of A, X, Y, SP and of a memory cell. Addition and subtraction wrap modulo 256 (R9). -/
abbrev Byte := BitVec 8

/-- `word` and `addr` of R8: the width of PC and of an address. Addition wraps modulo 65536 (R9). -/
abbrev Word := BitVec 16

end Sys2Proof
end

