-- ==== Sys2Proof/Config.lean ====
section
/-! DEFINITION. The two configuration inputs of the core (spec/10_state.md R31, spec/00_scope.md R6). -/

namespace Sys2Proof

/-- The configuration inputs of R31: constant over the life of a core, read only by reset and, through the cells
nothing has written, by memory. -/
structure Config where
  /-- `RESET_VECTOR` of R6: the address reset puts in PC. -/
  resetVector : Word
  /-- `FILL` of R6 and R45: the byte reset writes to every cell. The spec leaves it OPEN (D5), so it is a field here
  and every claim quantifies over it. -/
  fill : Byte
  deriving DecidableEq, Repr

/-- The configuration of `State.reset`: `RESET_VECTOR` at R6's default 0xFFFC (log 2).
DESIGN CHOICE (unsafe, log 1): the spec names 0x00 and 0xEA for `FILL` and chooses neither; 0x00 stands here. -/
def Config.default : Config := { resetVector := 0xFFFC, fill := 0x00 }

end Sys2Proof
end

