-- ==== Sys2Proof/Syntax.lean ====
section
/-! DEFINITION. The 26 instructions of spec/30_encoding.md R76, one constructor per row of spec/opcode_table.json. -/

namespace Sys2Proof

/-- An instruction with its operand: `d8` is a byte, `a16` a word (R72, R73, R74, R75). The general registers are
named, not numbered, and each opcode implies the registers it uses (R20), so no constructor has a register field. -/
inductive Instr where
  -- load A (spec/42_load.md R131 to R138)
  | ldaImm (d8 : Byte)
  | ldaZp (d8 : Byte)
  | ldaZpX (d8 : Byte)
  | ldaAbs (a16 : Word)
  | ldaAbsX (a16 : Word)
  | ldaAbsY (a16 : Word)
  | ldaIndX (d8 : Byte)
  | ldaIndY (d8 : Byte)
  -- load X (R139 to R143)
  | ldxImm (d8 : Byte)
  | ldxZp (d8 : Byte)
  | ldxZpY (d8 : Byte)
  | ldxAbs (a16 : Word)
  | ldxAbsY (a16 : Word)
  -- load Y (R144 to R148)
  | ldyImm (d8 : Byte)
  | ldyZp (d8 : Byte)
  | ldyZpX (d8 : Byte)
  | ldyAbs (a16 : Word)
  | ldyAbsX (a16 : Word)
  -- control transfer (spec/43_control_transfer.md R151 to R154)
  | jmpAbs (a16 : Word)
  | jmpInd (a16 : Word)
  | jsr (a16 : Word)
  | rts
  -- NOP, HLT, INX, INY (spec/44_nop_halt_increment.md R160 to R163)
  | nop
  | hlt
  | inx
  | iny
  deriving DecidableEq, Repr

end Sys2Proof
end

