-- ==== Sys2Proof/Machine/State.lean ====
section
/-! DEFINITION. The state of the core and of what surrounds it, the ways a step can stop, and reset. -/

namespace Sys2Proof.Machine

/-- Memory as the cells that hold something else than `FILL`: (address, byte) pairs, addresses strictly rising, none
equal to `FILL`. An address not listed reads as `FILL` (spec/20_memory.md R40, R45). -/
abbrev Memory := List Host.Cell

/-- The seven flags of spec/10_state.md R26, separate bits with no packed form (R29). -/
structure Flags where
  /-- Carry: state that no instruction reads or writes (R28). -/
  c : Bool
  /-- Zero: written by SetZN only (R27). -/
  z : Bool
  /-- Interrupt-disable: as C. -/
  i : Bool
  /-- Decimal: as C. -/
  d : Bool
  /-- Break: as C. -/
  b : Bool
  /-- Overflow: as C. -/
  v : Bool
  /-- Negative: written by SetZN only (R27). -/
  n : Bool
  deriving DecidableEq, Repr

/-- The run state of R34. The budget of R33 "exists only for the duration of one `run` invocation", so it is part of
Running (log 10). It is an unbounded signed integer (D12). -/
inductive RunState where
  | halted
  | running (budget : Int)
  deriving DecidableEq, Repr

/-- The halt causes of spec/60_exceptions.md R179, with the fields of R35 that are meaningful with each (log 11). -/
inductive HaltCause where
  | budgetExhausted
  | haltOpcode
  | illegalOpcode (faultOpcode : Byte) (faultAddr : Word)
  deriving DecidableEq, Repr

/-- The halt record of R35, written at the end of a run. -/
structure HaltRecord where
  cause : HaltCause
  budgetLeft : Int
  deriving DecidableEq, Repr

/-- The host's moves of spec/00_scope.md R15 that change state; it has none while the core is Running. -/
inductive HostMove where
  /-- Reset the core, memory included (R200). -/
  | reset
  /-- Reset the memory alone (R45, R202). -/
  | memReset
  /-- `MemWrite(a, 1, v)` (R42). -/
  | writeByte (addr : Word) (value : Byte)
  /-- `MemWrite(a, 2, v)` (R44). -/
  | writeWord (addr : Word) (value : Word)
  /-- `run(budget)` with any integer (R90). -/
  | run (budget : Int)
  deriving DecidableEq, Repr

/-- Everything the spec gives the machine, and two fields of the model's own at the end (INVENTORY.md, State). -/
structure State where
  /-- `RESET_VECTOR` and `FILL` (R31). -/
  config : Config
  /-- Program counter (R24). -/
  pc : Word
  /-- Stack pointer (R22). -/
  sp : Byte
  /-- Accumulator (R20). -/
  a : Byte
  /-- Index X (R20). -/
  x : Byte
  /-- Index Y (R20). -/
  y : Byte
  /-- The seven flags (R26). -/
  flags : Flags
  /-- The address space (R40). -/
  mem : Memory
  /-- Running, with its budget, or Halted (R34, R33). -/
  run : RunState
  /-- The record of the last run that ended since reset; none is R35's "no run has ended since reset". -/
  haltRecord : Option HaltRecord
  /-- A reset has happened: `run` has no meaning before the first one (R37). The model's own field (log 9). -/
  everReset : Bool
  /-- The host's remaining moves, the next one first. The model's own field (log 7). -/
  hostMoves : List HostMove
  deriving DecidableEq, Repr

/-- Reasons the machine stops with a fault. There is none: the hardware's one exception, IllegalOpcode, is a halt whose
entry the spec gives (R171), hence a next state; AddressOutOfRange is unreachable (R172); stack underflow and overflow
raise nothing (R173); nothing else exists (R174). Safe: no behaviour of the hardware is cut off here. -/
inductive Fault where
  deriving DecidableEq, Repr

/-- Reasons a step is refused. -/
inductive Refusal where
  /-- An arm of `exec` whose instruction has no meaning yet. No arm raises it. Safe. -/
  | notModelled (mnemonic : String)
  /-- Raised by the host's move `run` when no reset has happened: R37, "A model gives `run` no meaning before the first
  reset (refuse)" (log 9). Safe. -/
  | runBeforeReset
  deriving DecidableEq, Repr

/-- The core right after reset (R200, R36), with a given configuration and given moves left to the host. -/
def State.resetWith (cfg : Config) (moves : List HostMove) : State where
  config := cfg
  pc := cfg.resetVector
  sp := 0x00
  a := 0x00
  x := 0x00
  y := 0x00
  flags := ⟨false, false, false, false, false, false, false⟩
  mem := []
  run := .halted
  haltRecord := none
  everReset := true
  hostMoves := moves

/-- The machine right after reset, with R6's default reset vector (log 2), the chosen `FILL` (log 1) and nothing left
to the host (log 7). -/
def State.reset : State := State.resetWith Config.default []

end Sys2Proof.Machine
end

