-- ==== Sys2Proof/Machine/Flags.lean ====
section
/-! DEFINITION. The one flag computation of the core: SetZN (spec/40_execution_loop.md R99, spec/10_state.md R27). -/

namespace Sys2Proof.Machine

/-- Z of `SetZN(v)`: 1 exactly when the byte is 0x00. -/
def zeroFlag (v : Byte) : Bool := v == 0

/-- N of `SetZN(v)`: bit 7 of the byte. -/
def negativeFlag (v : Byte) : Bool := v.getLsbD 7

/-- The flags after `SetZN(v)`: Z and N recomputed, C, I, D, B and V as they were (R28). -/
def Flags.setZN (f : Flags) (v : Byte) : Flags := { f with z := zeroFlag v, n := negativeFlag v }

/-- `SetZN(v)` of R99. It costs nothing. -/
def State.setZN (s : State) (v : Byte) : State := { s with flags := s.flags.setZN v }

end Sys2Proof.Machine
end

