-- ==== Sys2Proof/Machine/Bytes.lean ====
section
/-! DEFINITION. Byte order and widening (spec/00_scope.md R7, R8; spec/20_memory.md R47). -/

namespace Sys2Proof.Machine

/-- `zext_16(b)` of R8: the byte as a word whose high byte is 0x00. -/
def zext16 (b : Byte) : Word := b.setWidth 16

/-- The concatenation written with the more significant part first in R7: the word with high byte `hi` and low byte
`lo`. -/
def wordOf (hi lo : Byte) : Word := hi ++ lo

/-- `w[7:0]` of R7. -/
def lowByte (w : Word) : Byte := w.extractLsb' 0 8

/-- `w[15:8]` of R7. -/
def highByte (w : Word) : Byte := w.extractLsb' 8 8

end Sys2Proof.Machine
end

