-- ==== Sys2Proof/WellFormed.lean ====
section
/-! DEFINITION. What is well formed: an instruction term always (spec/30_encoding.md R78, R84); a string of bytes when
it is exactly one instruction (R70, R76, R77). -/

namespace Sys2Proof

/-- Every instruction term is well formed. R84: "Operand bytes are never checked. Any byte value is a legal `d8`, any
word a legal `a16`"; the operand widths are carried by the types of the constructors, so nothing is left to check. -/
def Instr.wf (_ : Instr) : Bool := true

/-- Columns `opcode` and `length` of R76, as R70 and R77 list them: how many bytes the instruction with this opcode
byte has, or none for the 230 illegal values. Written apart from the decoder's table, as a check on it. -/
def opcodeLength (b : Byte) : Option Nat :=
  if b ∈ ([0x60, 0xEA, 0x02, 0xE8, 0xC8] : List Byte) then some 1
  else if b ∈ ([0xA9, 0xA5, 0xB5, 0xA1, 0xB1, 0xA2, 0xA6, 0xB6, 0xA0, 0xA4, 0xB4] : List Byte) then some 2
  else if b ∈ ([0xAD, 0xBD, 0xB9, 0xAE, 0xBE, 0xAC, 0xBC, 0x4C, 0x6C, 0x20] : List Byte) then some 3
  else none

/-- A string of bytes that is exactly one instruction: it has a first byte, that byte is one of the 26 opcodes (R77),
and the string is as long as that opcode says (R70). The operand bytes are not looked at (R84). -/
def wellFormedBytes : List Byte → Bool
  | [] => false
  | op :: operands =>
    match opcodeLength op with
    | none => false
    | some n => operands.length + 1 == n

end Sys2Proof
end

