-- ==== Sys2Proof/Decode.lean ====
section
/-! DEFINITION. The opcode table, the decoder and the encoder (spec/30_encoding.md R70 to R84). -/

namespace Sys2Proof

/-- The three formats of R70, each with the instruction its operand makes: `IMP` (opcode only), `OP8` (one operand
byte), `OP16` (one operand word, low byte first). -/
inductive Format where
  | imp (i : Instr)
  | op8 (mk : Byte → Instr)
  | op16 (mk : Word → Instr)

/-- One row of R76: opcode byte, format with operation and mode, base cost, whether a page-cross penalty can apply. -/
structure OpcodeRow where
  opcode : Byte
  format : Format
  /-- Total cost without the penalty (R104). HLT's 1 is its opcode fetch; the rest of its budget is forced to 0. -/
  baseCost : Int
  penalty : Bool

/-- The 26 rows of R76, in its order. Opcode values and modes are the spec's decisions D1 to D3 (log 3), base costs
D6 (log 4). -/
def opcodeTable : List OpcodeRow :=
  ([⟨0xA9, .op8 .ldaImm, 2, false⟩,
    ⟨0xA5, .op8 .ldaZp, 3, false⟩,
    ⟨0xB5, .op8 .ldaZpX, 4, false⟩,
    ⟨0xAD, .op16 .ldaAbs, 4, false⟩,
    ⟨0xBD, .op16 .ldaAbsX, 4, true⟩,
    ⟨0xB9, .op16 .ldaAbsY, 4, true⟩,
    ⟨0xA1, .op8 .ldaIndX, 6, false⟩,
    ⟨0xB1, .op8 .ldaIndY, 5, true⟩] : List OpcodeRow) ++
  [⟨0xA2, .op8 .ldxImm, 2, false⟩,
    ⟨0xA6, .op8 .ldxZp, 3, false⟩,
    ⟨0xB6, .op8 .ldxZpY, 4, false⟩,
    ⟨0xAE, .op16 .ldxAbs, 4, false⟩,
    ⟨0xBE, .op16 .ldxAbsY, 4, true⟩,
    ⟨0xA0, .op8 .ldyImm, 2, false⟩,
    ⟨0xA4, .op8 .ldyZp, 3, false⟩,
    ⟨0xB4, .op8 .ldyZpX, 4, false⟩,
    ⟨0xAC, .op16 .ldyAbs, 4, false⟩,
    ⟨0xBC, .op16 .ldyAbsX, 4, true⟩] ++
  [⟨0x4C, .op16 .jmpAbs, 3, false⟩,
    ⟨0x6C, .op16 .jmpInd, 5, false⟩,
    ⟨0x20, .op16 .jsr, 6, false⟩,
    ⟨0x60, .imp .rts, 6, false⟩,
    ⟨0xEA, .imp .nop, 2, false⟩,
    ⟨0x02, .imp .hlt, 1, false⟩,
    ⟨0xE8, .imp .inx, 2, false⟩,
    ⟨0xC8, .imp .iny, 2, false⟩]

/-- `decode(op)` of spec/40_execution_loop.md R100: the row whose opcode equals the byte, all eight bits compared
(R83), or none: illegal. -/
def lookupOpcode (op : Byte) : Option OpcodeRow := opcodeTable.find? (fun r => r.opcode == op)

/-- Why a string of bytes is no instruction. -/
inductive DecodeReject where
  /-- No byte at all. -/
  | noBytes
  /-- The first byte is none of the 26 opcodes (R77, R83): the case IllegalOpcode of spec/60_exceptions.md R171. -/
  | illegalOpcode (op : Byte)
  /-- The string ends inside the operand. Memory has a byte at every address (R40), so a fetch never meets this. -/
  | truncated (op : Byte)
  deriving DecidableEq, Repr

/-- Read one instruction from the front of a string of bytes: the instruction and the bytes left (R70 to R75). Total:
every byte value is either a row or illegal (R83). -/
def decode : List Byte → Except DecodeReject (Instr × List Byte)
  | [] => .error .noBytes
  | op :: rest =>
    match lookupOpcode op with
    | none => .error (.illegalOpcode op)
    | some row =>
      match row.format, rest with
      | .imp i, rest => .ok (i, rest)
      | .op8 mk, d8 :: rest => .ok (mk d8, rest)
      | .op16 mk, lo :: hi :: rest => .ok (mk (Machine.wordOf hi lo), rest)
      | _, _ => .error (.truncated op)

/-- The bytes of the `OP16` format of R73: opcode, low byte, high byte (R75). -/
def encodeOp16 (op : Byte) (a16 : Word) : List Byte := [op, Machine.lowByte a16, Machine.highByte a16]

/-- The bytes of an instruction, in address order, from the `Encoding` lines of R131 to R148, R151 to R154 and R160 to
R163. -/
def encode : Instr → List Byte
  | .ldaImm d8 => [0xA9, d8]
  | .ldaZp d8 => [0xA5, d8]
  | .ldaZpX d8 => [0xB5, d8]
  | .ldaAbs a16 => encodeOp16 0xAD a16
  | .ldaAbsX a16 => encodeOp16 0xBD a16
  | .ldaAbsY a16 => encodeOp16 0xB9 a16
  | .ldaIndX d8 => [0xA1, d8]
  | .ldaIndY d8 => [0xB1, d8]
  | .ldxImm d8 => [0xA2, d8]
  | .ldxZp d8 => [0xA6, d8]
  | .ldxZpY d8 => [0xB6, d8]
  | .ldxAbs a16 => encodeOp16 0xAE a16
  | .ldxAbsY a16 => encodeOp16 0xBE a16
  | .ldyImm d8 => [0xA0, d8]
  | .ldyZp d8 => [0xA4, d8]
  | .ldyZpX d8 => [0xB4, d8]
  | .ldyAbs a16 => encodeOp16 0xAC a16
  | .ldyAbsX a16 => encodeOp16 0xBC a16
  | .jmpAbs a16 => encodeOp16 0x4C a16
  | .jmpInd a16 => encodeOp16 0x6C a16
  | .jsr a16 => encodeOp16 0x20 a16
  | .rts => [0x60]
  | .nop => [0xEA]
  | .hlt => [0x02]
  | .inx => [0xE8]
  | .iny => [0xC8]

/-- The three bytes, in address order, of a table word of `nbits` bits: bit 0 is the least significant bit of the first
byte, bits 15..8 are the second byte, and every bit above `nbits` is 0. Three bytes are the longest instruction
(R70). -/
def tableWordBytes (nbits w : Nat) : List Byte :=
  let v := w % 2 ^ nbits
  [BitVec.ofNat 8 v, BitVec.ofNat 8 (v / 256), BitVec.ofNat 8 (v / 65536)]

/-- What the decoder reads from a table word, or none where it refuses. -/
def decodeTableWord (nbits w : Nat) : Option Instr :=
  match decode (tableWordBytes nbits w) with
  | .ok (i, _) => some i
  | .error _ => none

end Sys2Proof
end

