-- ==== Sys2Proof/Machine/Ops.lean ====
section
/-! DEFINITION. The named operations over memory, registers, budget and run state: the raw memory access of
spec/20_memory.md, the charged primitives of spec/40_execution_loop.md, halt entry and resumption of
spec/60_exceptions.md, reset of spec/70_reset_and_hazards.md. -/

namespace Sys2Proof.Machine

/-! ## Memory as a canonical list -/

/-- The byte at an address; a cell not listed holds `fill` (R45). -/
def Memory.read (fill : Byte) : Memory → Nat → Byte
  | [], _ => fill
  | (k, w) :: rest, a => if k = a then w else Memory.read fill rest a

/-- The cells with `a` listed as `v`, in its place in the rising order. -/
def Memory.insert (a : Nat) (v : Byte) : Memory → Memory
  | [] => [(a, v)]
  | (k, w) :: rest =>
    if a < k then (a, v) :: (k, w) :: rest
    else if a = k then (a, v) :: rest
    else (k, w) :: Memory.insert a v rest

/-- The cells with `a` not listed. -/
def Memory.remove (a : Nat) (m : Memory) : Memory := m.filter (fun c => c.1 != a)

/-- Store a byte, keeping the canonical form: writing `fill` removes the entry. -/
def Memory.write (fill : Byte) (m : Memory) (a : Nat) (v : Byte) : Memory :=
  if v = fill then Memory.remove a m else Memory.insert a v m

/-- Addresses strictly rising from a lower bound, below 65536 (R40), no entry equal to `fill`. -/
def Memory.wfFrom (fill : Byte) : Nat → Memory → Bool
  | _, [] => true
  | lo, (k, w) :: rest => decide (lo ≤ k) && decide (k < 65536) && decide (w ≠ fill) && Memory.wfFrom fill (k + 1) rest

/-- The canonical form: equal memories are equal lists. -/
def Memory.wf (fill : Byte) (m : Memory) : Bool := Memory.wfFrom fill 0 m

/-! ## Raw memory access, uncharged (spec/00_scope.md R11) -/

/-- `MemRead(a, 1)`, `read_byte` of R41: the cell at `a`; changes nothing. Every address exists (R40, R46). -/
def State.memRead (s : State) (a : Word) : Byte := Memory.read s.config.fill s.mem a.toNat

/-- `MemRead(a, 2)` of R43: low byte at `a`, high byte at `(a + 1) mod 65536` (R62). -/
def State.memReadWord (s : State) (a : Word) : Word := wordOf (s.memRead (a + 1)) (s.memRead a)

/-- `MemWrite(a, 1, v)`, `write_byte` of R42. -/
def State.memWrite (s : State) (a : Word) (v : Byte) : State :=
  { s with mem := Memory.write s.config.fill s.mem a.toNat v }

/-- `MemWrite(a, 2, v)`, `write_word` of R44: low byte at `a`, high byte at `(a + 1) mod 65536` (R62). -/
def State.memWriteWord (s : State) (a : Word) (v : Word) : State :=
  (s.memWrite a (lowByte v)).memWrite (a + 1) (highByte v)

/-! ## Registers, one update each -/

def State.setPC (s : State) (v : Word) : State := { s with pc := v }
def State.setSP (s : State) (v : Byte) : State := { s with sp := v }
def State.setA (s : State) (v : Byte) : State := { s with a := v }
def State.setX (s : State) (v : Byte) : State := { s with x := v }
def State.setY (s : State) (v : Byte) : State := { s with y := v }

/-! ## The budget -/

/-- `budget <- budget - n` (R98) while Running; outside a run there is no budget (R33). -/
def RunState.debit (n : Int) : RunState → RunState
  | .halted => .halted
  | .running b => .running (b - n)

/-- `budget <- 0` of R161 while Running. -/
def RunState.forceZero : RunState → RunState
  | .halted => .halted
  | .running _ => .running 0

/-- `Tick(n)` of R98: debits `n` and touches nothing else. -/
def State.tick (n : Int) (s : State) : State := { s with run := s.run.debit n }

/-! ## Charged primitives (spec/00_scope.md R12). What each costs is decision D6, but for the fetch's 1 (log 4). -/

/-- `FetchByte()` of R93: the byte at PC; PC advances by one modulo 65536; costs 1. -/
def fetchByte (s : State) : Byte × State := (s.memRead s.pc, (s.setPC (s.pc + 1)).tick 1)

/-- `FetchWord()` of R94: two `FetchByte()`, the first giving the low byte. -/
def fetchWord (s : State) : Word × State :=
  let (lo, s1) := fetchByte s
  let (hi, s2) := fetchByte s1
  (wordOf hi lo, s2)

/-- `ReadByte(a)` of R95: costs 1. -/
def readByte (a : Word) (s : State) : Byte × State := (s.memRead a, s.tick 1)

/-- `ReadWord(a)` of R96: costs 2. -/
def readWord (a : Word) (s : State) : Word × State := (s.memReadWord a, s.tick 2)

/-- `WriteWord(a, v)` of R97: costs 2. -/
def writeWord (a : Word) (v : Word) (s : State) : State := (s.memWriteWord a v).tick 2

/-- The state after `n` `FetchByte()`: what an instruction of `n` bytes has done once its opcode and operand, which the
decoder has read from those same bytes, are fetched (R92, R110). -/
def fetched : Nat → State → State
  | 0, s => s
  | n + 1, s => fetched n (fetchByte s).2

/-- The bytes the next three `FetchByte()` would give: the decoder reads from them the one, two or three that belong to
the instruction. Reads have no side effect (R50), so looking ahead changes nothing (log 13). -/
def fetchWindow (s : State) : List Byte :=
  let (b0, s1) := fetchByte s
  let (b1, s2) := fetchByte s1
  let (b2, _) := fetchByte s2
  [b0, b1, b2]

/-! ## The stack (spec/10_state.md R22) -/

/-- `STACK_BASE` of R6. -/
def stackBase : Word := 0x0100

/-- `STACK_BASE + zext_16(SP)` of R22. -/
def stackAddr (sp : Byte) : Word := stackBase + zext16 sp

/-! ## Halt entry: taking the exception, and the other two ends of a run (spec/60_exceptions.md R177) -/

/-- Halt entry of R177, the same for the three causes: the run state becomes Halted and the halt record (R35) takes the
cause and the budget the run ends with. Nothing is pushed, no flag, register or memory cell changes, no vector is
taken. Where no run is in progress there is none to end. -/
def haltEntry (cause : HaltCause) (s : State) : State :=
  match s.run with
  | .halted => s
  | .running b => { s with run := .halted, haltRecord := some ⟨cause, b⟩ }

/-- Taking IllegalOpcode (R171): the fetch has happened, so PC is one past the byte and 1 is debited; the record takes
the byte and the address it was fetched from; nothing else changes. -/
def takeIllegalOpcode (s : State) : State :=
  let (op, s1) := fetchByte s
  haltEntry (.illegalOpcode op s.pc) s1

/-- The test of the run loop (R91, R92 sub-step 6): a run whose budget is no longer positive ends, BudgetExhausted. -/
def loopTest (s : State) : State :=
  match s.run with
  | .halted => s
  | .running b => if b ≤ 0 then haltEntry .budgetExhausted s else s

/-- Starting a run (R90, R91), which is also the only way back after a halt (R180): execution goes on at the current PC
with all state as left, whatever the last halt was. With a budget that is not positive the loop body never runs
(R106). -/
def beginRun (budget : Int) (s : State) : State := loopTest { s with run := .running budget }

/-! ## Reset (spec/70_reset_and_hazards.md R200, R202) -/

/-- The memory's own reset (R45): every cell holds `FILL`. -/
def memReset (s : State) : State := { s with mem := [] }

/-- Reset of the core (R200). The configuration is constant (R31), the host's remaining moves are the host's. -/
def resetCore (s : State) : State :=
  { memReset s with
    pc := s.config.resetVector
    sp := 0x00
    a := 0x00
    x := 0x00
    y := 0x00
    flags := ⟨false, false, false, false, false, false, false⟩
    run := .halted
    haltRecord := none
    everReset := true }

end Sys2Proof.Machine
end

