-- ==== Sys2Proof/Machine/Operands.lean ====
section
/-! DEFINITION. The address-mode resolver (spec/41_addressing_modes.md R110 to R123). Each mode is given its operand as
the decoder fetched it and the state after that fetch (`fetched`), and answers the effective address and the state
after its own extra cost. Modes write no register and no flag (R110). -/

namespace Sys2Proof.Machine

/-- `crossed(b, r)` of R123: the high bytes differ. -/
def crossed (b r : Word) : Bool := highByte b != highByte r

/-- `b +16 zext_16(index)` with the penalty of R116: one more unit when the addition crosses a page. -/
def indexed (b : Word) (index : Byte) (s : State) : Word × State :=
  let ea := b + zext16 index
  (ea, if crossed b ea then s.tick 1 else s)

/-- Zero-page (R112). -/
def zeroPage (d : Byte) (s : State) : Word × State := (zext16 d, s)

/-- Zero-page,X (R113): the sum wraps within the zero page. -/
def zeroPageX (d : Byte) (s : State) : Word × State := (zext16 (d + s.x), s.tick 1)

/-- Zero-page,Y (R114). -/
def zeroPageY (d : Byte) (s : State) : Word × State := (zext16 (d + s.y), s.tick 1)

/-- Absolute (R115), and the operand of JMP absolute and JSR (R121). -/
def absolute (a : Word) (s : State) : Word × State := (a, s)

/-- Absolute,X (R116). -/
def absoluteX (b : Word) (s : State) : Word × State := indexed b s.x s

/-- Absolute,Y (R117). -/
def absoluteY (b : Word) (s : State) : Word × State := indexed b s.y s

/-- (Indirect,X) (R118): the pointer address wraps in the zero page, the pointer word does not. -/
def indirectX (d : Byte) (s : State) : Word × State := readWord (zext16 (d + s.x)) (s.tick 1)

/-- (Indirect),Y (R119): the word at the zero-page pointer, offset by Y (spec/90_conflicts.md C4). -/
def indirectY (d : Byte) (s : State) : Word × State :=
  let (b, s1) := readWord (zext16 d) s
  indexed b s1.y s1

/-- The operand of JMP indirect (R122): no wrap of the pointer within its page. -/
def jumpIndirect (p : Word) (s : State) : Word × State := readWord p s

/-- Read the operand byte at a resolved address: `ea <- mode(); v <- ReadByte(ea)` of R132 to R148. -/
def operandByte (resolved : Word × State) : Byte × State := readByte resolved.1 resolved.2

end Sys2Proof.Machine
end

