-- ==== Sys2Proof/Machine/Load.lean ====
section
/-! DEFINITION. The load family LDA, LDX, LDY (spec/42_load.md R130 to R149). Each meaning starts with PC at its opcode:
`fetched` is the fetch of the opcode and the operand. -/

namespace Sys2Proof.Machine

/-- What a step of the core answers. -/
abbrev Result := Host.Outcome State Fault Refusal

/-- `A <- v; SetZN(v)` of R130. -/
def loadA (operand : Byte × State) : Result := .next ((operand.2.setA operand.1).setZN operand.1)

/-- `X <- v; SetZN(v)` of R130. -/
def loadX (operand : Byte × State) : Result := .next ((operand.2.setX operand.1).setZN operand.1)

/-- `Y <- v; SetZN(v)` of R130. -/
def loadY (operand : Byte × State) : Result := .next ((operand.2.setY operand.1).setZN operand.1)

/-- LDA immediate (R131; the mode is R111). -/
def execLdaImm (d8 : Byte) (s : State) : Result := loadA (d8, fetched 2 s)
/-- LDA zero-page (R132). -/
def execLdaZp (d8 : Byte) (s : State) : Result := loadA (operandByte (zeroPage d8 (fetched 2 s)))
/-- LDA zero-page,X (R133). -/
def execLdaZpX (d8 : Byte) (s : State) : Result := loadA (operandByte (zeroPageX d8 (fetched 2 s)))
/-- LDA absolute (R134). -/
def execLdaAbs (a16 : Word) (s : State) : Result := loadA (operandByte (absolute a16 (fetched 3 s)))
/-- LDA absolute,X (R135). -/
def execLdaAbsX (a16 : Word) (s : State) : Result := loadA (operandByte (absoluteX a16 (fetched 3 s)))
/-- LDA absolute,Y (R136). -/
def execLdaAbsY (a16 : Word) (s : State) : Result := loadA (operandByte (absoluteY a16 (fetched 3 s)))
/-- LDA (indirect,X) (R137). -/
def execLdaIndX (d8 : Byte) (s : State) : Result := loadA (operandByte (indirectX d8 (fetched 2 s)))
/-- LDA (indirect),Y (R138). -/
def execLdaIndY (d8 : Byte) (s : State) : Result := loadA (operandByte (indirectY d8 (fetched 2 s)))

/-- LDX immediate (R139). -/
def execLdxImm (d8 : Byte) (s : State) : Result := loadX (d8, fetched 2 s)
/-- LDX zero-page (R140). -/
def execLdxZp (d8 : Byte) (s : State) : Result := loadX (operandByte (zeroPage d8 (fetched 2 s)))
/-- LDX zero-page,Y (R141). -/
def execLdxZpY (d8 : Byte) (s : State) : Result := loadX (operandByte (zeroPageY d8 (fetched 2 s)))
/-- LDX absolute (R142). -/
def execLdxAbs (a16 : Word) (s : State) : Result := loadX (operandByte (absolute a16 (fetched 3 s)))
/-- LDX absolute,Y (R143). -/
def execLdxAbsY (a16 : Word) (s : State) : Result := loadX (operandByte (absoluteY a16 (fetched 3 s)))

/-- LDY immediate (R144). -/
def execLdyImm (d8 : Byte) (s : State) : Result := loadY (d8, fetched 2 s)
/-- LDY zero-page (R145). -/
def execLdyZp (d8 : Byte) (s : State) : Result := loadY (operandByte (zeroPage d8 (fetched 2 s)))
/-- LDY zero-page,X (R146). -/
def execLdyZpX (d8 : Byte) (s : State) : Result := loadY (operandByte (zeroPageX d8 (fetched 2 s)))
/-- LDY absolute (R147). -/
def execLdyAbs (a16 : Word) (s : State) : Result := loadY (operandByte (absolute a16 (fetched 3 s)))
/-- LDY absolute,X (R148). -/
def execLdyAbsX (a16 : Word) (s : State) : Result := loadY (operandByte (absoluteX a16 (fetched 3 s)))

end Sys2Proof.Machine
end

