-- ==== Sys2Proof/Machine/Control.lean ====
section
/-! DEFINITION. Control transfer: JSR, RTS, JMP, JMP indirect (spec/43_control_transfer.md R150 to R155). -/

namespace Sys2Proof.Machine

/-- JMP absolute (R153): `target <- FetchWord(); PC <- target`. -/
def execJmpAbs (a16 : Word) (s : State) : Result :=
  let (target, s1) := absolute a16 (fetched 3 s)
  .next (s1.setPC target)

/-- JMP indirect (R154): `p <- FetchWord(); PC <- ReadWord(p)`. -/
def execJmpInd (a16 : Word) (s : State) : Result :=
  let (target, s1) := jumpIndirect a16 (fetched 3 s)
  .next (s1.setPC target)

/-- JSR (R151): after the operand fetch PC is the address of the next instruction; that is pushed as a word at the stack
address, low byte first; SP moves up by 2; PC takes the target. -/
def execJsr (a16 : Word) (s : State) : Result :=
  let (target, s1) := absolute a16 (fetched 3 s)
  let s2 := writeWord (stackAddr s1.sp) s1.pc s1
  .next (((s2.setSP (s2.sp + 2)).setPC target).tick 1)

/-- RTS (R152): SP moves down by 2 modulo 256 (spec/90_conflicts.md C1) and PC takes the word there unchanged. -/
def execRts (s : State) : Result :=
  let s1 := fetched 1 s
  let p := s1.sp - 2
  let (ret, s2) := readWord (stackAddr p) s1
  .next (((s2.setSP p).setPC ret).tick 3)

end Sys2Proof.Machine
end

