-- ==== Sys2Proof/Machine/Misc.lean ====
section
/-! DEFINITION. NOP, HLT, INX, INY (spec/44_nop_halt_increment.md R160 to R164). -/

namespace Sys2Proof.Machine

/-- NOP (R160): the opcode fetch and `Tick(1)`, nothing else. -/
def execNop (s : State) : Result := .next ((fetched 1 s).tick 1)

/-- HLT (R161): `budget <- 0` and the run ends, HaltOpcode; registers, flags and memory unchanged but for the PC advance
of the fetch. The halt entry happens here and not in the loop of R91, which no one can tell apart (log 12). -/
def execHlt (s : State) : Result :=
  let s1 := fetched 1 s
  .next (haltEntry .haltOpcode { s1 with run := s1.run.forceZero })

/-- INX (R162): `X <- X +8 1; SetZN(X); Tick(1)`, the flags from the new X (spec/90_conflicts.md C5). -/
def execInx (s : State) : Result :=
  let s1 := fetched 1 s
  let s2 := s1.setX (s1.x + 1)
  .next ((s2.setZN s2.x).tick 1)

/-- INY (R163): `Y <- Y +8 1; SetZN(Y); Tick(1)`. -/
def execIny (s : State) : Result :=
  let s1 := fetched 1 s
  let s2 := s1.setY (s1.y + 1)
  .next ((s2.setZN s2.y).tick 1)

end Sys2Proof.Machine
end

