-- ==== Sys2Proof/Machine/Dispatch.lean ====
section
/-! DEFINITION. The dispatcher: one meaning per instruction (spec/40_execution_loop.md R92, R100, R102). `exec i s` is the
whole of the instruction: `s` has PC at its opcode byte, and the fetch of its bytes is part of it. -/

namespace Sys2Proof.Machine

def exec (i : Instr) (s : State) : Host.Outcome State Fault Refusal :=
  match i with
  | .ldaImm d8 => Sys2Proof.Machine.execLdaImm d8 s
  | .ldaZp d8 => Sys2Proof.Machine.execLdaZp d8 s
  | .ldaZpX d8 => Sys2Proof.Machine.execLdaZpX d8 s
  | .ldaAbs a16 => Sys2Proof.Machine.execLdaAbs a16 s
  | .ldaAbsX a16 => Sys2Proof.Machine.execLdaAbsX a16 s
  | .ldaAbsY a16 => Sys2Proof.Machine.execLdaAbsY a16 s
  | .ldaIndX d8 => Sys2Proof.Machine.execLdaIndX d8 s
  | .ldaIndY d8 => Sys2Proof.Machine.execLdaIndY d8 s
  | .ldxImm d8 => Sys2Proof.Machine.execLdxImm d8 s
  | .ldxZp d8 => Sys2Proof.Machine.execLdxZp d8 s
  | .ldxZpY d8 => Sys2Proof.Machine.execLdxZpY d8 s
  | .ldxAbs a16 => Sys2Proof.Machine.execLdxAbs a16 s
  | .ldxAbsY a16 => Sys2Proof.Machine.execLdxAbsY a16 s
  | .ldyImm d8 => Sys2Proof.Machine.execLdyImm d8 s
  | .ldyZp d8 => Sys2Proof.Machine.execLdyZp d8 s
  | .ldyZpX d8 => Sys2Proof.Machine.execLdyZpX d8 s
  | .ldyAbs a16 => Sys2Proof.Machine.execLdyAbs a16 s
  | .ldyAbsX a16 => Sys2Proof.Machine.execLdyAbsX a16 s
  | .jmpAbs a16 => Sys2Proof.Machine.execJmpAbs a16 s
  | .jmpInd a16 => Sys2Proof.Machine.execJmpInd a16 s
  | .jsr a16 => Sys2Proof.Machine.execJsr a16 s
  | .rts => Sys2Proof.Machine.execRts s
  | .nop => Sys2Proof.Machine.execNop s
  | .hlt => Sys2Proof.Machine.execHlt s
  | .inx => Sys2Proof.Machine.execInx s
  | .iny => Sys2Proof.Machine.execIny s

end Sys2Proof.Machine
end

