-- ==== Sys2Proof/Machine/Loop.lean ====
section
/-! DEFINITION. One turn of the run loop (spec/40_execution_loop.md R91, R92), the host's moves between runs
(spec/00_scope.md R15), and what the host can observe. -/

namespace Sys2Proof.Machine

/-- After a complete instruction the loop tests the budget (R91; R92 sub-step 6). -/
def afterInstruction : Result → Result
  | .next t => .next (loopTest t)
  | .fault r => .fault r
  | .refused r => .refused r

/-- One turn of the loop of R91, entered with a positive budget: the instruction at PC, or IllegalOpcode, then the
budget test. The window has three bytes, so the only rejection of the decoder is an illegal opcode (R83). -/
def runStep (s : State) : Result :=
  match decode (fetchWindow s) with
  | .ok (i, _) => afterInstruction (exec i s)
  | .error _ => .next (takeIllegalOpcode s)

/-- A step while Running. A budget that is not positive ends the run before any fetch (R91, R176); no run is ever left
in that condition (log 15). -/
def coreStep (budget : Int) (s : State) : Result :=
  if 0 < budget then runStep s else .next (loopTest s)

/-- A move of the host, made while Halted (R15). `run` before the first reset is refused (R37). -/
def hostMove (m : HostMove) (s : State) : Result :=
  match m with
  | .reset => .next (resetCore s)
  | .memReset => .next (memReset s)
  | .writeByte a v => .next (s.memWrite a v)
  | .writeWord a v => .next (s.memWriteWord a v)
  | .run budget => if s.everReset then .next (beginRun budget s) else .refused .runBeforeReset

/-- A step while Halted: the host's next move; with none left, nothing happens (R187: "Halted keeps all state", log 8). -/
def hostStep (s : State) : Result :=
  match s.hostMoves with
  | [] => .next s
  | m :: rest => hostMove m { s with hostMoves := rest }

/-! ## What the host observes (R15 items 4 and 6): nothing while Running

DESIGN CHOICE (unsafe, log 19): before the first reset the state "holds no defined value" (spec/10_state.md R37), and the
spec does not say what a read answers then; these three answer what the state holds. -/

/-- The registers, the flags and the halt record (R21, R35). -/
structure HostView where
  pc : Word
  sp : Byte
  a : Byte
  x : Byte
  y : Byte
  flags : Flags
  haltRecord : Option HaltRecord
  deriving DecidableEq, Repr

/-- The code R179 gives a halt cause. -/
def haltCode : HaltCause → Nat
  | .budgetExhausted => 0
  | .haltOpcode => 1
  | .illegalOpcode _ _ => 2

/-- Inspection (R15 item 6). Before the first reset: log 19. -/
def hostInspect (s : State) : Option HostView :=
  match s.run with
  | .running _ => none
  | .halted => some ⟨s.pc, s.sp, s.a, s.x, s.y, s.flags, s.haltRecord⟩

/-- Reading one cell (R15 item 4, R41, R61). Before the first reset: log 19. -/
def hostReadByte (s : State) (a : Word) : Option Byte :=
  match s.run with
  | .running _ => none
  | .halted => some (s.memRead a)

/-- Reading one word (R15 item 4, R43, R61). Before the first reset: log 19. -/
def hostReadWord (s : State) (a : Word) : Option Word :=
  match s.run with
  | .running _ => none
  | .halted => some (s.memReadWord a)

/-- Where `withFetchWord` places an instruction: three bytes from PC on, modulo 65536 (R70, R25). -/
def placeAtPC (s : State) (bytes : List Byte) : State :=
  match bytes with
  | [b0, b1, b2] => ((s.memWrite s.pc b0).memWrite (s.pc + 1) b1).memWrite (s.pc + 2) b2
  | _ => s

/-- A run in progress with budget left: as it is when there is one, else a run of budget 1, which executes exactly one
instruction (R108; log 14). -/
def ensureRunning : RunState → RunState
  | .halted => .running 1
  | .running b => if 0 < b then .running b else .running 1

end Sys2Proof.Machine
end

