-- ==== Sys2Proof/Machine/Step.lean ====
section
/-! DEFINITION. The step of the machine: the core's while Running, the host's while Halted (spec/10_state.md R34,
spec/00_scope.md R15). -/

namespace Sys2Proof.Machine

/-- One step. It refuses only `run` before the first reset, and never faults. -/
def step (s : State) : Host.Outcome State Fault Refusal :=
  match s.run with
  | .halted => hostStep s
  | .running budget => coreStep budget s

/-- The state with an instruction stored where the next step fetches it, and a run in progress so that the step does
fetch (log 14). -/
def State.withFetchWord (s : State) (nbits w : Nat) : State :=
  { placeAtPC s (tableWordBytes nbits w) with run := ensureRunning s.run }

end Sys2Proof.Machine
end

