-- ==== Sys2Proof/Safety.lean ====
section
/-! DEFINITION. The terms claims are stated in: which register an instruction writes, where a load reads, what holds of
every state reachable from reset, and the loop turn of spec/40_execution_loop.md R92 written fetch by fetch. -/

namespace Sys2Proof.Machine

/-- The three general registers of spec/10_state.md R20. -/
inductive Reg8 where
  | a
  | x
  | y
  deriving DecidableEq, Repr

/-- The value of a general register. -/
def State.reg (s : State) : Reg8 → Byte
  | .a => s.a
  | .x => s.x
  | .y => s.y

/-- The state with a general register replaced. -/
def State.withReg (s : State) (r : Reg8) (v : Byte) : State :=
  match r with
  | .a => { s with a := v }
  | .x => { s with x := v }
  | .y => { s with y := v }

/-- The general register an instruction loads or increments (R21). -/
def destination : Instr → Option Reg8
  | .ldaImm _ | .ldaZp _ | .ldaZpX _ | .ldaAbs _ | .ldaAbsX _ | .ldaAbsY _ | .ldaIndX _ | .ldaIndY _ => some .a
  | .ldxImm _ | .ldxZp _ | .ldxZpY _ | .ldxAbs _ | .ldxAbsY _ | .inx => some .x
  | .ldyImm _ | .ldyZp _ | .ldyZpX _ | .ldyAbs _ | .ldyAbsX _ | .iny => some .y
  | .jmpAbs _ | .jmpInd _ | .jsr _ | .rts | .nop | .hlt => none

/-- Whether an instruction reads X: INX and the X-indexed modes (R21). -/
def readsX : Instr → Bool
  | .inx | .ldaZpX _ | .ldyZpX _ | .ldaAbsX _ | .ldyAbsX _ | .ldaIndX _ => true
  | .ldaImm _ | .ldaZp _ | .ldaAbs _ | .ldaAbsY _ | .ldaIndY _ | .ldxImm _ | .ldxZp _ | .ldxZpY _ | .ldxAbs _
  | .ldxAbsY _ | .ldyImm _ | .ldyZp _ | .ldyAbs _ | .jmpAbs _ | .jmpInd _ | .jsr _ | .rts | .nop | .hlt | .iny => false

/-- Whether an instruction reads Y: INY and the Y-indexed modes (R21). -/
def readsY : Instr → Bool
  | .iny | .ldxZpY _ | .ldaAbsY _ | .ldxAbsY _ | .ldaIndY _ => true
  | .ldaImm _ | .ldaZp _ | .ldaZpX _ | .ldaAbs _ | .ldaAbsX _ | .ldaIndX _ | .ldxImm _ | .ldxZp _ | .ldxAbs _
  | .ldyImm _ | .ldyZp _ | .ldyZpX _ | .ldyAbs _ | .ldyAbsX _ | .jmpAbs _ | .jmpInd _ | .jsr _ | .rts | .nop | .hlt
  | .inx => false

/-- Whether an instruction reads a general register; nothing reads A (R21). -/
def readsReg (i : Instr) : Reg8 → Bool
  | .a => false
  | .x => readsX i
  | .y => readsY i

/-- Whether an instruction reads or writes SP: JSR and RTS only (R22). -/
def usesSP : Instr → Bool
  | .jsr _ | .rts => true
  | .ldaImm _ | .ldaZp _ | .ldaZpX _ | .ldaAbs _ | .ldaAbsX _ | .ldaAbsY _ | .ldaIndX _ | .ldaIndY _ | .ldxImm _
  | .ldxZp _ | .ldxZpY _ | .ldxAbs _ | .ldxAbsY _ | .ldyImm _ | .ldyZp _ | .ldyZpX _ | .ldyAbs _ | .ldyAbsX _
  | .jmpAbs _ | .jmpInd _ | .nop | .hlt | .inx | .iny => false

/-- The base address and the index of the modes that pay for a page crossing: absolute,X, absolute,Y and (indirect),Y
(spec/41_addressing_modes.md R116, R117, R119). -/
def indexedBase (s : State) : Instr → Option (Word × Byte)
  | .ldaAbsX a16 | .ldyAbsX a16 => some (a16, s.x)
  | .ldaAbsY a16 | .ldxAbsY a16 => some (a16, s.y)
  | .ldaIndY d8 => some (s.memReadWord (zext16 d8), s.y)
  | .ldaImm _ | .ldaZp _ | .ldaZpX _ | .ldaAbs _ | .ldaIndX _ | .ldxImm _ | .ldxZp _ | .ldxZpY _ | .ldxAbs _
  | .ldyImm _ | .ldyZp _ | .ldyZpX _ | .ldyAbs _ | .jmpAbs _ | .jmpInd _ | .jsr _ | .rts | .nop | .hlt | .inx
  | .iny => none

/-- The byte a load loads (spec/42_load.md R131 to R148, modes R111 to R119), from the state before the instruction. -/
def loadValue (s : State) : Instr → Option Byte
  | .ldaImm d8 | .ldxImm d8 | .ldyImm d8 => some d8
  | .ldaZp d8 | .ldxZp d8 | .ldyZp d8 => some (s.memRead (zext16 d8))
  | .ldaZpX d8 | .ldyZpX d8 => some (s.memRead (zext16 (d8 + s.x)))
  | .ldxZpY d8 => some (s.memRead (zext16 (d8 + s.y)))
  | .ldaAbs a16 | .ldxAbs a16 | .ldyAbs a16 => some (s.memRead a16)
  | .ldaAbsX a16 | .ldyAbsX a16 => some (s.memRead (a16 + zext16 s.x))
  | .ldaAbsY a16 | .ldxAbsY a16 => some (s.memRead (a16 + zext16 s.y))
  | .ldaIndX d8 => some (s.memRead (s.memReadWord (zext16 (d8 + s.x))))
  | .ldaIndY d8 => some (s.memRead (s.memReadWord (zext16 d8) + zext16 s.y))
  | .jmpAbs _ | .jmpInd _ | .jsr _ | .rts | .nop | .hlt | .inx | .iny => none

/-- What R130 says a load leaves: the register and Z and N take the byte, PC and the budget are as given, nothing else
changes. -/
def State.afterLoad (s : State) (r : Reg8) (v : Byte) (pc : Word) (budget : Int) : State :=
  { s.withReg r v with
    flags := { s.flags with z := v == 0, n := v.getLsbD 7 }
    pc := pc
    run := .running budget }

/-- The page-cross unit as R123 counts it on integers: 1 exactly when the low byte of the base plus the index reaches
0x100. -/
def crossPenalty (base : Word) (index : Byte) : Int := if base.toNat % 256 + index.toNat < 256 then 0 else 1

/-- C, I, D, B and V all 0 (R28). -/
def Flags.othersClear (f : Flags) : Prop := f.c = false ∧ f.i = false ∧ f.d = false ∧ f.b = false ∧ f.v = false

/-- C, I, D, B and V agree (R28). -/
def Flags.sameOthers (f g : Flags) : Prop := f.c = g.c ∧ f.i = g.i ∧ f.d = g.d ∧ f.b = g.b ∧ f.v = g.v

/-- The 26 opcodes as spec/30_encoding.md R77 lists them. -/
def listedOpcodes : List Byte :=
  [0x02, 0x20, 0x4C, 0x60, 0x6C, 0xA0, 0xA1, 0xA2, 0xA4, 0xA5, 0xA6, 0xA9, 0xAC] ++
  [0xAD, 0xAE, 0xB1, 0xB4, 0xB5, 0xB6, 0xB9, 0xBC, 0xBD, 0xBE, 0xC8, 0xE8, 0xEA]

/-- What holds of every state from the first reset on. -/
structure Inv (s : State) : Prop where
  /-- A reset has happened (R37). -/
  reset : s.everReset = true
  /-- Memory keeps its canonical form. -/
  memory : Memory.wf s.config.fill s.mem = true
  /-- "SP is even in every state reachable from reset" (R22, R210). -/
  stack : s.sp.toNat % 2 = 0
  /-- C, I, D, B and V "are 0 for ever" (R28). -/
  flags : s.flags.othersClear
  /-- A run in progress has budget left: the loop of R91 stops otherwise. -/
  budget : ∀ b, s.run = .running b → 0 < b

/-- The halt record's promise for each cause, about the state the run leaves (R91, R179): the budget is used up; HLT,
whose byte stands before PC, left nothing; or the byte before PC has no row in the opcode table and its address is
recorded. -/
def HaltRecord.justified (r : HaltRecord) (s : State) : Prop :=
  match r.cause with
  | .budgetExhausted => r.budgetLeft ≤ 0
  | .haltOpcode => r.budgetLeft = 0 ∧ decode [s.memRead (s.pc - 1)] = .ok (.hlt, [])
  | .illegalOpcode op addr => lookupOpcode op = none ∧ s.memRead addr = op ∧ s.pc = addr + 1 ∧ 0 ≤ r.budgetLeft

/-- The halt record's promise for each cause, about the state before the run's last step (R91 items 1 to 3): the last
instruction was another than HLT; it was HLT; or the byte at PC was no opcode. -/
def HaltRecord.endsRunFrom (r : HaltRecord) (u : State) : Prop :=
  match r.cause with
  | .budgetExhausted => ∃ i rest, decode (fetchWindow u) = .ok (i, rest) ∧ i ≠ .hlt
  | .haltOpcode => ∃ rest, decode (fetchWindow u) = .ok (.hlt, rest)
  | .illegalOpcode op addr => u.pc = addr ∧ u.memRead addr = op ∧ lookupOpcode op = none

/-- The part of the state that does not tell how much budget there is and how the last run ended (R38, R108). -/
def State.architectural (s : State) : State := { s with run := .halted, haltRecord := none }

/-- One turn of the loop of R91 with the step of R92, the bytes fetched one by one as R93 and R94 do: the opcode first,
then as many operand bytes as its row's format says. -/
def fetchedLoopTurn (s : State) : Result :=
  let (op, s1) := fetchByte s
  match lookupOpcode op with
  | none => .next (haltEntry (.illegalOpcode op s.pc) s1)
  | some row =>
    match row.format with
    | .imp i => afterInstruction (exec i s)
    | .op8 mk => afterInstruction (exec (mk (fetchByte s1).1) s)
    | .op16 mk => afterInstruction (exec (mk (fetchWord s1).1) s)

end Sys2Proof.Machine
end

