-- ==== Sys2Proof/Certificates/Slice0/Obligations.lean ====
section
/-! DEFINITION. The statements about the core. In every docstring "cost clause: D6" says that the number of units debited
rests on the spec's own decisions D6 and D7 (log 4), "opcode bytes: D1" that the bytes of the encoding rest on its
decisions D1 to D3 (log 3). -/

open Sys2Proof Sys2Proof.Machine

/-! ## Encoding (spec/30_encoding.md) -/

/-- R70 to R75: the decoder reads back every instruction from its bytes, whatever follows them, with every operand at
every value (every term is well formed, R84). Opcode bytes: D1. -/
def Obligations.DecodeAfterEncodeGivesTheInstruction : Prop :=
  ∀ (i : Instr) (rest : List Byte), decode (encode i ++ rest) = .ok (i, rest)

/-- R70 to R75: the bytes the decoder reads an instruction from are that instruction's bytes: no two strings decode to
one instruction, and no bit is dropped. Opcode bytes: D1. -/
def Obligations.EncodeAfterDecodeGivesTheBytes : Prop :=
  ∀ (bytes : List Byte) (i : Instr) (rest : List Byte), decode bytes = .ok (i, rest) → bytes = encode i ++ rest

/-- R70, R77, R84: a string of bytes is exactly one instruction to the decoder if and only if its first byte is listed
and it is as long as that opcode says. Opcode bytes: D1. -/
def Obligations.DecodeAcceptsExactlyTheWellFormedStrings : Prop :=
  ∀ bytes : List Byte, (∃ i, decode bytes = .ok (i, [])) ↔ wellFormedBytes bytes = true

/-- R77, R83: the 26 bytes of R77 each have a row of their own, and every other byte is illegal, whatever follows it.
Opcode bytes: D1, D2. -/
def Obligations.BytesOutsideTheListAreIllegal : Prop :=
  (∀ op ∈ listedOpcodes, ∃ row ∈ opcodeTable, row.opcode = op ∧ lookupOpcode op = some row) ∧
  (∀ op rest, op ∉ listedOpcodes → lookupOpcode op = none ∧ decode (op :: rest) = .error (.illegalOpcode op))

/-- Sanity: words written out from the encodings of R131, R135, R141, R151, R152, R161 and R162 decode to those
instructions, the low operand byte at the lower address (R75). Opcode bytes: D1, D2. -/
def Obligations.WordsOfEachFamilyDecode : Prop :=
  decodeTableWord 16 0x80A9 = some (.ldaImm 0x80) ∧ decodeTableWord 24 0x10FFBD = some (.ldaAbsX 0x10FF) ∧
  decodeTableWord 16 0xFFB6 = some (.ldxZpY 0xFF) ∧ decodeTableWord 24 0x123420 = some (.jsr 0x1234) ∧
  decodeTableWord 8 0x60 = some .rts ∧ decodeTableWord 8 0x02 = some .hlt ∧ decodeTableWord 8 0xE8 = some .inx

/-! ## Memory (spec/20_memory.md) -/

/-- R42, R61: a byte write of the host stores the byte at its address and leaves every other cell, and everything else
of the machine, as it was. -/
def Obligations.HostByteWriteChangesOneCell : Prop :=
  ∀ (s : State) (addr : Word) (v : Byte) (rest : List HostMove),
    s.run = .halted → s.hostMoves = .writeByte addr v :: rest →
    ∃ t, step s = .next t ∧ t = { s with hostMoves := rest, mem := t.mem } ∧
      ∀ b : Word, t.memRead b = if b = addr then v else s.memRead b

/-- R44, R43, R62, R61: a word write of the host at any address stores the low byte there and the high byte at the next
address modulo 65536 (0x0000 after 0xFFFF, decision D8, log 5), changes no other byte, and reads back as the word. -/
def Obligations.HostWordWriteIsLittleEndianAndWraps : Prop :=
  ∀ (s : State) (addr v : Word) (rest : List HostMove),
    s.run = .halted → s.hostMoves = .writeWord addr v :: rest →
    ∃ t, step s = .next t ∧ t = { s with hostMoves := rest, mem := t.mem } ∧
      (t.memRead addr).toNat = v.toNat % 256 ∧ (t.memRead (addr + 1)).toNat = v.toNat / 256 ∧
      (∀ b : Word, b ≠ addr → b ≠ addr + 1 → t.memRead b = s.memRead b) ∧ hostReadWord t addr = some v

/-- The canonical form does its work: two memories in it that read alike at all 65536 addresses (R40) are equal lists. -/
def Obligations.CanonicalMemoriesThatReadAlikeAreEqual : Prop :=
  ∀ (fill : Byte) (m m' : Memory), Memory.wf fill m = true → Memory.wf fill m' = true →
    (∀ a : Word, Memory.read fill m a.toNat = Memory.read fill m' a.toNat) → m = m'

/-! ## Primitives (spec/40_execution_loop.md, spec/41_addressing_modes.md) -/

/-- R93: FetchByte gives the byte at PC, advances PC by one modulo 65536, debits 1 and does nothing else. The clauses on
`fetchWindow` and `fetched` are the model's own choice (log 13, DEDUCED; no rule names them): the decoder's window is what
three FetchByte give, and an instruction of `n` bytes starts from the state after `n` of them. -/
def Obligations.FetchByteReadsAdvancesAndDebits : Prop :=
  (∀ (s : State) (b : Int), s.run = .running b →
    fetchByte s = (s.memRead s.pc, { s with pc := s.pc + 1, run := .running (b - 1) })) ∧
  (∀ s : State, fetchWindow s = [(fetchByte s).1, (fetchByte (fetchByte s).2).1, (fetchByte (fetchByte (fetchByte s).2).2).1]) ∧
  (∀ s : State, fetched 1 s = (fetchByte s).2 ∧ fetched 2 s = (fetchByte (fetchByte s).2).2 ∧
    fetched 3 s = (fetchByte (fetchByte (fetchByte s).2).2).2)

/-- R123: an index crosses a page exactly when the low byte of the base plus the index reaches 0x100, the wrap past
0xFFFF included (that case is decision D16, log 5); an index of 0 never crosses. -/
def Obligations.PageCrossingIsTheCarryOutOfTheLowByte : Prop :=
  (∀ (base : Word) (index : Byte), crossed base (base + zext16 index) = decide (256 ≤ base.toNat % 256 + index.toNat)) ∧
  (∀ base : Word, crossed base (base + zext16 0) = false)

/-- R112, R113, R114: the zero-page modes answer an address below 0x100, the operand plus the index modulo 256, and the
indexed ones debit 1 for the addition. -/
def Obligations.ZeroPageAddressesWrapInThePage : Prop :=
  ∀ (d : Byte) (s : State) (b : Int), s.run = .running b →
    (zeroPage d s).1.toNat = d.toNat ∧ (zeroPage d s).2 = s ∧
    (zeroPageX d s).1.toNat = (d.toNat + s.x.toNat) % 256 ∧ (zeroPageX d s).2 = { s with run := .running (b - 1) } ∧
    (zeroPageY d s).1.toNat = (d.toNat + s.y.toNat) % 256 ∧ (zeroPageY d s).2 = { s with run := .running (b - 1) }

/-! ## What each instruction does: the next state, for every state while Running -/

/-- R131, R139, R144: the immediate loads. Their cost is two fetches (R93). Modes: D3. -/
def Obligations.ImmediateLoadsLoadTheOperand : Prop :=
  ∀ (d : Byte) (s : State) (b : Int), s.run = .running b →
    exec (.ldaImm d) s = .next (s.afterLoad .a d (s.pc + 2) (b - 2)) ∧
    exec (.ldxImm d) s = .next (s.afterLoad .x d (s.pc + 2) (b - 2)) ∧
    exec (.ldyImm d) s = .next (s.afterLoad .y d (s.pc + 2) (b - 2))

/-- R132, R140, R145: the zero-page loads read the cell at the operand with high byte 0x00. Cost clause: D6. Modes: D3. -/
def Obligations.ZeroPageLoadsLoadTheCell : Prop :=
  ∀ (d : Byte) (s : State) (b : Int), s.run = .running b →
    exec (.ldaZp d) s = .next (s.afterLoad .a (s.memRead (zext16 d)) (s.pc + 2) (b - 3)) ∧
    exec (.ldxZp d) s = .next (s.afterLoad .x (s.memRead (zext16 d)) (s.pc + 2) (b - 3)) ∧
    exec (.ldyZp d) s = .next (s.afterLoad .y (s.memRead (zext16 d)) (s.pc + 2) (b - 3))

/-- R133, R141, R146: the indexed zero-page loads read the cell at the 8-bit sum; LDX is indexed by Y. Cost clause: D6.
Modes: D3. -/
def Obligations.IndexedZeroPageLoadsLoadTheCell : Prop :=
  ∀ (d : Byte) (s : State) (b : Int), s.run = .running b →
    exec (.ldaZpX d) s = .next (s.afterLoad .a (s.memRead (zext16 (d + s.x))) (s.pc + 2) (b - 4)) ∧
    exec (.ldxZpY d) s = .next (s.afterLoad .x (s.memRead (zext16 (d + s.y))) (s.pc + 2) (b - 4)) ∧
    exec (.ldyZpX d) s = .next (s.afterLoad .y (s.memRead (zext16 (d + s.x))) (s.pc + 2) (b - 4))

/-- R134, R142, R147: the absolute loads read the cell at the operand. Cost clause: D6. Modes: D3. -/
def Obligations.AbsoluteLoadsLoadTheCell : Prop :=
  ∀ (a : Word) (s : State) (b : Int), s.run = .running b →
    exec (.ldaAbs a) s = .next (s.afterLoad .a (s.memRead a) (s.pc + 3) (b - 4)) ∧
    exec (.ldxAbs a) s = .next (s.afterLoad .x (s.memRead a) (s.pc + 3) (b - 4)) ∧
    exec (.ldyAbs a) s = .next (s.afterLoad .y (s.memRead a) (s.pc + 3) (b - 4))

/-- R135, R136, R143, R148, R116, R117, R123: the absolute-indexed loads read the cell at the 16-bit sum (modulo 65536,
D16, log 5) and cost one more exactly when the addition crosses a page. Cost clause: D6, but for the crossing unit. -/
def Obligations.IndexedAbsoluteLoadsLoadTheCell : Prop :=
  ∀ (a : Word) (s : State) (b : Int), s.run = .running b →
    exec (.ldaAbsX a) s = .next (s.afterLoad .a (s.memRead (a + zext16 s.x)) (s.pc + 3) (b - 4 - crossPenalty a s.x)) ∧
    exec (.ldaAbsY a) s = .next (s.afterLoad .a (s.memRead (a + zext16 s.y)) (s.pc + 3) (b - 4 - crossPenalty a s.y)) ∧
    exec (.ldxAbsY a) s = .next (s.afterLoad .x (s.memRead (a + zext16 s.y)) (s.pc + 3) (b - 4 - crossPenalty a s.y)) ∧
    exec (.ldyAbsX a) s = .next (s.afterLoad .y (s.memRead (a + zext16 s.x)) (s.pc + 3) (b - 4 - crossPenalty a s.x))

/-- R137, R118: LDA (indirect,X) reads the cell at the word stored at the 8-bit sum of operand and X, high byte of the
word at the next address with no zero-page wrap (D9, log 5). Cost clause: D6. -/
def Obligations.IndirectXLoadFollowsThePointer : Prop :=
  ∀ (d : Byte) (s : State) (b : Int), s.run = .running b →
    let p : Word := zext16 (d + s.x)
    exec (.ldaIndX d) s =
      .next (s.afterLoad .a (s.memRead (s.memRead (p + 1) ++ s.memRead p)) (s.pc + 2) (b - 6))

/-- R138, R119: LDA (indirect),Y reads the cell at the word stored at the operand, offset by Y and never by X, high byte
of the word at the next address with no zero-page wrap (D9, log 5). Cost clause: D6, D7. -/
def Obligations.IndirectYLoadOffsetsThePointerByY : Prop :=
  ∀ (d : Byte) (s : State) (b : Int), s.run = .running b →
    let p : Word := zext16 d
    let base : Word := s.memRead (p + 1) ++ s.memRead p
    exec (.ldaIndY d) s =
      .next (s.afterLoad .a (s.memRead (base + zext16 s.y)) (s.pc + 2) (b - 5 - crossPenalty base s.y))

/-- R153: JMP absolute. Its cost is three fetches (R93, R94). -/
def Obligations.JumpAbsoluteSetsPC : Prop :=
  ∀ (a : Word) (s : State) (b : Int), s.run = .running b →
    exec (.jmpAbs a) s = .next { s with pc := a, run := .running (b - 3) }

/-- R154, R122: JMP indirect; the high byte comes from the next address, whatever page it is in (D10, log 5). Cost
clause: D6. -/
def Obligations.JumpIndirectSetsPCFromMemory : Prop :=
  ∀ (p : Word) (s : State) (b : Int), s.run = .running b →
    exec (.jmpInd p) s = .next { s with pc := s.memRead (p + 1) ++ s.memRead p, run := .running (b - 5) }

/-- R151: JSR writes the address of the next instruction as a word at 0x0100 + SP, moves SP up by 2 modulo 256 and jumps.
The stack's ends: D11 (log 6). Cost clause: D6. -/
def Obligations.CallPushesTheNextAddress : Prop :=
  ∀ (a : Word) (s : State) (b : Int), s.run = .running b →
    exec (.jsr a) s = .next { s.memWriteWord (0x0100 + zext16 s.sp) (s.pc + 3) with
      sp := s.sp + 2, pc := a, run := .running (b - 6) }

/-- R152: RTS moves SP down by 2 modulo 256 and loads the word at 0x0100 + the new SP into PC unchanged. The stack's
ends: D11 (log 6). Cost clause: D6. -/
def Obligations.ReturnPopsTheAddress : Prop :=
  ∀ (s : State) (b : Int), s.run = .running b →
    let p : Word := 0x0100 + zext16 (s.sp - 2)
    exec .rts s = .next { s with
      sp := s.sp - 2, pc := s.memRead (p + 1) ++ s.memRead p, run := .running (b - 6) }

/-- R160: NOP advances PC by one and debits its cost, nothing else. Its length: D22 (log 3). Cost clause: D6. -/
def Obligations.NopOnlyAdvances : Prop :=
  ∀ (s : State) (b : Int), s.run = .running b →
    exec .nop s = .next { s with pc := s.pc + 1, run := .running (b - 2) }

/-- R161: HLT ends the run with cause HaltOpcode and nothing left of the budget, PC at the byte after it, everything else
unchanged. The form of the record: D13, D19 (log 11). -/
def Obligations.HaltEndsTheRun : Prop :=
  ∀ (s : State) (b : Int), s.run = .running b →
    exec .hlt s = .next { s with pc := s.pc + 1, run := .halted, haltRecord := some ⟨.haltOpcode, 0⟩ }

/-- R162, R163: INX and INY add 1 modulo 256 and set Z and N from the register they increment. Cost clause: D6. -/
def Obligations.IncrementsAddOneAndSetFlags : Prop :=
  ∀ (s : State) (b : Int), s.run = .running b →
    exec .inx s = .next (s.afterLoad .x (s.x + 1) (s.pc + 1) (b - 2)) ∧
    exec .iny s = .next (s.afterLoad .y (s.y + 1) (s.pc + 1) (b - 2))

/-! ## Frames and whole-machine rules over all instructions -/

/-- R130: every load writes its one register with exactly the operand byte its mode gives, Z and N from that byte, PC past
the instruction, and the budget; the other registers, SP, the flags C, I, D, B, V and all of memory are unchanged; no
exception; a core that is Running stays Running, with another budget; and no load reads the register it writes. Which
loads there are is D3 (log 3), the byte loaded where a pointer or an address wraps D9 and D16 (log 5). -/
def Obligations.LoadsWriteOneRegisterAndItsFlags : Prop :=
  ∀ (i : Instr) (s : State) (v : Byte), loadValue s i = some v →
    ∃ r t, destination i = some r ∧ readsReg i r = false ∧ exec i s = .next t ∧
      t = { s.withReg r v with
        flags := { s.flags with z := v == 0, n := v.getLsbD 7 }
        pc := s.pc + BitVec.ofNat 16 (encode i).length
        run := t.run } ∧
      (t.run = .halted ↔ s.run = .halted) ∧
      ∀ w : Byte, exec i (s.withReg r w) = .next t

/-- Frame of the loads, INX and INY (R130, R162, R163): nothing but the destination register, Z, N, PC and the budget
changes; every byte of memory reads as before; none of them ends or starts a run. -/
def Obligations.FrameOfLoadsAndIncrements : Prop :=
  ∀ (i : Instr) (s t : State) (r : Reg8), destination i = some r → exec i s = .next t →
    (∀ r', r' ≠ r → t.reg r' = s.reg r') ∧ t.sp = s.sp ∧ t.flags.sameOthers s.flags ∧ t.config = s.config ∧
    (t.run = .halted ↔ s.run = .halted) ∧ t.haltRecord = s.haltRecord ∧ t.everReset = s.everReset ∧ t.hostMoves = s.hostMoves ∧
    ∀ a : Word, t.memRead a = s.memRead a

/-- Frame of JMP, JMP indirect, RTS, NOP and HLT (R150, R152, R160, R161): registers, all seven flags and every byte of
memory are unchanged; SP changes in RTS only, by -2; the halt record and the end of the run are HLT's only. -/
def Obligations.FrameOfTransfersNopAndHalt : Prop :=
  ∀ (i : Instr) (s t : State), destination i = none → (∀ a, i ≠ .jsr a) → exec i s = .next t →
    t.a = s.a ∧ t.x = s.x ∧ t.y = s.y ∧ t.flags = s.flags ∧ t.sp = (if i = .rts then s.sp - 2 else s.sp) ∧
    t.config = s.config ∧ t.everReset = s.everReset ∧ t.hostMoves = s.hostMoves ∧
    (i ≠ .hlt → t.haltRecord = s.haltRecord ∧ (t.run = .halted ↔ s.run = .halted)) ∧
    ∀ a : Word, t.memRead a = s.memRead a

/-- Frame of JSR (R151): it stores the two bytes of the address after it at `stackAddr s.sp` and the next address, and
every byte outside those two reads as before; of the rest only SP (by +2, the stack pointer the call moves), PC and the
budget change, and no run ends or starts. -/
def Obligations.FrameOfCall : Prop :=
  ∀ (target : Word) (s t : State), exec (.jsr target) s = .next t →
    t.memRead (stackAddr s.sp) = lowByte (s.pc + 3) ∧ t.memRead (stackAddr s.sp + 1) = highByte (s.pc + 3) ∧
    (∀ a : Word, a ≠ stackAddr s.sp → a ≠ stackAddr s.sp + 1 → t.memRead a = s.memRead a) ∧
    t.sp = s.sp + 2 ∧ t.a = s.a ∧ t.x = s.x ∧ t.y = s.y ∧ t.flags = s.flags ∧ t.config = s.config ∧
    (t.run = .halted ↔ s.run = .halted) ∧ t.haltRecord = s.haltRecord ∧ t.everReset = s.everReset ∧ t.hostMoves = s.hostMoves

/-- R27, R99: SetZN sets Z exactly on 0x00 and N to bit 7, writes no other flag and nothing else; every load and
increment applies it to the register it wrote; JMP, JMP indirect, JSR, RTS, NOP, HLT and an illegal opcode leave Z and
N as they were; and no instruction reads a flag: with other flags before, the rest of the outcome is the same. -/
def Obligations.ZeroAndNegativeDescribeTheWrittenRegister : Prop :=
  (∀ (s : State) (v : Byte), s.setZN v = { s with flags := { s.flags with z := decide (v = 0x00), n := v.getLsbD 7 } }) ∧
  (∀ (i : Instr) (s t : State), exec i s = .next t →
    match destination i with
    | some r => t.flags.z = decide (t.reg r = 0x00) ∧ t.flags.n = (t.reg r).getLsbD 7
    | none => t.flags.z = s.flags.z ∧ t.flags.n = s.flags.n) ∧
  (∀ s : State, (takeIllegalOpcode s).flags.z = s.flags.z ∧ (takeIllegalOpcode s).flags.n = s.flags.n) ∧
  (∀ (i : Instr) (s t : State) (f : Flags), exec i s = .next t →
    ∃ t', exec i { s with flags := f } = .next t' ∧ { t' with flags := t.flags } = t)

/-- R28: reset clears C, I, D, B and V; no instruction and no illegal opcode writes them; no instruction reads them
(flags that differ in those five only give the same outcome but for those five); once 0 they stay 0 through every
step. -/
def Obligations.OtherFlagsAreNeitherWrittenNorRead : Prop :=
  (∀ s : State, (resetCore s).flags.othersClear) ∧
  (∀ (i : Instr) (s t : State), exec i s = .next t → t.flags.sameOthers s.flags) ∧
  (∀ s : State, (takeIllegalOpcode s).flags.sameOthers s.flags) ∧
  (∀ (i : Instr) (s t : State) (f : Flags), f.z = s.flags.z → f.n = s.flags.n → exec i s = .next t →
    exec i { s with flags := f } = .next { t with flags := { f with z := t.flags.z, n := t.flags.n } }) ∧
  (∀ s t : State, s.flags.othersClear → step s = .next t → t.flags.othersClear)

/-- R21, R22, R130: a general register an instruction does not read (`readsReg`: X in INX and the X-indexed modes, Y in
INY and the Y-indexed modes, A never) does not influence it: with another value there before, the outcome is the same,
but for that register itself where the instruction does not write it; and SP influences JSR and RTS only. -/
def Obligations.UnreadRegistersDoNotInfluence : Prop :=
  (∀ (i : Instr) (s t : State) (r : Reg8) (v : Byte), readsReg i r = false → exec i s = .next t →
    exec i (s.withReg r v) = .next (if destination i = some r then t else t.withReg r v)) ∧
  (∀ (i : Instr) (s t : State) (v : Byte), usesSP i = false → exec i s = .next t →
    t.sp = s.sp ∧ exec i { s with sp := v } = .next { t with sp := v })

/-- R25, R24: PC wraps modulo 65536, so FetchByte at 0xFFFF reads 0xFFFF and leaves 0x0000 and a longer instruction goes
on there; every instruction that is not a transfer leaves PC its length further; JMP, JMP indirect, JSR and RTS leave
it at their target; an illegal opcode one further. The spec's own decisions in it: NOP's length D22 (log 3), the pointer
of JMP indirect at a page end and at 0xFFFF D8 and D10 (log 5), the stack word of RTS at SP 0x00 and 0x01 D11 (log 6), PC
after an illegal opcode D13 (log 16). The clause on `fetchWindow` is the model's (log 13). -/
def Obligations.ProgramCounterAfterEachInstruction : Prop :=
  (∀ s : State, s.pc = 0xFFFF → (fetchByte s).1 = s.memRead 0xFFFF ∧ (fetchByte s).2.pc = 0x0000 ∧
    fetchWindow s = [s.memRead 0xFFFF, s.memRead 0x0000, s.memRead 0x0001]) ∧
  (∀ (i : Instr) (s t : State), exec i s = .next t →
    t.pc = match i with
      | .jmpAbs a | .jsr a => a
      | .jmpInd p => s.memReadWord p
      | .rts => s.memReadWord (stackAddr (s.sp - 2))
      | i => s.pc + BitVec.ofNat 16 (encode i).length) ∧
  (∀ (s : State) (b : Int), s.run = .running b → (takeIllegalOpcode s).pc = s.pc + 1)

/-- R104, R76: every instruction but HLT debits the base cost of its row of the opcode table, and one more exactly when
its row allows a page-cross penalty and the addition crosses. The costs are decisions D6 and D7 (log 4): this says the
charged primitives add up to the table. -/
def Obligations.CostsAreTheTableCosts : Prop :=
  ∀ (i : Instr) (s t : State) (b : Int), s.run = .running b → i ≠ .hlt → exec i s = .next t →
    ∃ row ∈ opcodeTable, (encode i).head? = some row.opcode ∧ row.penalty = (indexedBase s i).isSome ∧
      t.run = .running (b - row.baseCost - ((indexedBase s i).elim 0 fun p => crossPenalty p.1 p.2))

/-- R155: JSR followed by RTS gives PC the address after the JSR and SP its value before, for every SP, 0xFE and 0xFF
included, and leaves A, X, Y and the flags alone. -/
def Obligations.ReturnAfterCallResumesAfterIt : Prop :=
  ∀ (target : Word) (s t : State), exec (.jsr target) s = .next t →
    ∃ u, exec .rts t = .next u ∧ u.pc = s.pc + 3 ∧ u.sp = s.sp ∧ u.a = s.a ∧ u.x = s.x ∧ u.y = s.y ∧ u.flags = s.flags

/-! ## The step, the run loop, halting (spec/40_execution_loop.md, spec/60_exceptions.md) -/

/-- R92, R91: while Running with budget left, when the bytes at PC decode to an instruction, the step is that instruction
followed by the loop's test of the budget: a budget that is no longer positive ends the run, BudgetExhausted. The test
in the same step: log 12. -/
def Obligations.StepRunsTheDecodedInstruction : Prop :=
  (∀ (s : State) (b : Int) (i : Instr) (rest : List Byte), s.run = .running b → 0 < b → i.wf = true →
    decode [s.memRead s.pc, s.memRead (s.pc + 1), s.memRead (s.pc + 2)] = .ok (i, rest) →
    ∃ t, exec i s = .next t ∧ step s = .next (loopTest t)) ∧
  (∀ (t : State) (b : Int), t.run = .running b →
    loopTest t = if 0 < b then t else { t with run := .halted, haltRecord := some ⟨.budgetExhausted, b⟩ }) ∧
  (∀ t : State, t.run = .halted → loopTest t = t)

/-- R92, R93, R94, R100, R101: the step agrees with the step of R92 that fetches byte by byte and looks at the opcode
before it fetches any operand byte. -/
def Obligations.StepAgreesWithByteByByteFetch : Prop :=
  ∀ (s : State) (b : Int), s.run = .running b → 0 < b → step s = fetchedLoopTurn s

/-- R13: a byte with no row in the opcode table, fetched with budget left, ends the run: Halted, and the record
takes cause IllegalOpcode, the byte and the address it was fetched from; no other exception is ever raised: every
instruction answers a next state in every state, all but HLT leave the halt record and whether a run is in progress as
they were, and HLT leaves no IllegalOpcode record that was not there before. -/
def Obligations.IllegalOpcodeIsTheOnlyException : Prop :=
  (∀ (s : State) (b : Int), s.run = .running b → 0 < b → lookupOpcode (s.memRead s.pc) = none →
    ∃ t left, step s = .next t ∧ t.run = .halted ∧ t.haltRecord = some ⟨.illegalOpcode (s.memRead s.pc) s.pc, left⟩) ∧
  (∀ (i : Instr) (s : State), ∃ t, exec i s = .next t ∧
    (i ≠ .hlt → t.haltRecord = s.haltRecord ∧ (t.run = .halted ↔ s.run = .halted)) ∧
    ∀ op addr left, t.haltRecord = some ⟨.illegalOpcode op addr, left⟩ → s.haltRecord = t.haltRecord)

/-- R171, R77, R176, R178: taking IllegalOpcode changes PC (one past the byte), the run state and the halt record and
nothing else; 1 is debited, and it wins over exhaustion when that was the last unit. The form of the record and PC
after it: D13 (log 16). Opcode bytes: D1. -/
def Obligations.IllegalOpcodeChangesNothingElse : Prop :=
  ∀ (s : State) (b : Int), s.run = .running b → 0 < b → s.memRead s.pc ∉ listedOpcodes →
    step s = .next { s with
      pc := s.pc + 1, run := .halted
      haltRecord := some ⟨.illegalOpcode (s.memRead s.pc) s.pc, b - 1⟩ }

/-- R106: `run` with a budget that is not positive performs no instruction: nothing changes but the halt record, which
says BudgetExhausted with the argument left. -/
def Obligations.RunWithNoBudgetDoesNothing : Prop :=
  ∀ (s : State) (b : Int) (rest : List HostMove),
    s.run = .halted → s.everReset = true → s.hostMoves = .run b :: rest → b ≤ 0 →
    step s = .next { s with hostMoves := rest, haltRecord := some ⟨.budgetExhausted, b⟩ }

/-- R90, R180, R38: `run` with a positive budget enters Running at the current PC with everything as left, whatever the
last halt was: Halted is not sticky. Resumption after IllegalOpcode: D14 (log 16). -/
def Obligations.RunResumesWhereTheLastHaltLeft : Prop :=
  ∀ (s : State) (b : Int) (rest : List HostMove),
    s.run = .halted → s.everReset = true → s.hostMoves = .run b :: rest → 0 < b →
    step s = .next { s with hostMoves := rest, run := .running b }

/-- R37, D23: `run` before the first reset is refused, by name. -/
def Obligations.RunBeforeResetIsRefused : Prop :=
  ∀ (s : State) (b : Int) (rest : List HostMove),
    s.run = .halted → s.everReset = false → s.hostMoves = .run b :: rest → step s = .refused .runBeforeReset

/-- R200: reset, from any Halted state: PC takes RESET_VECTOR itself, SP, A, X, Y and the seven flags are 0 (Z too: SetZN
is not called), every cell reads FILL, Halted, no halt record. The model's own clauses: no cell is listed (log 1, DESIGN
CHOICE), a reset has happened (log 9, DESIGN CHOICE), the configuration and the host's remaining moves are kept (log 17,
DEDUCED; log 7, DESIGN CHOICE). -/
def Obligations.ResetGivesTheResetState : Prop :=
  ∀ (s : State) (rest : List HostMove), s.run = .halted → s.hostMoves = .reset :: rest →
    ∃ t, step s = .next t ∧ t.config = s.config ∧ t.pc = s.config.resetVector ∧ t.sp = 0x00 ∧
      t.a = 0x00 ∧ t.x = 0x00 ∧ t.y = 0x00 ∧ t.flags.othersClear ∧ t.flags.z = false ∧ t.flags.n = false ∧
      t.mem = [] ∧ (∀ a : Word, t.memRead a = s.config.fill) ∧ t.run = .halted ∧ t.haltRecord = none ∧
      t.everReset = true ∧ t.hostMoves = rest

/-- R45, R202: the memory's own reset makes every cell FILL and changes nothing else. -/
def Obligations.MemoryResetChangesMemoryOnly : Prop :=
  ∀ (s : State) (rest : List HostMove), s.run = .halted → s.hostMoves = .memReset :: rest →
    ∃ t, step s = .next t ∧ t = { s with hostMoves := rest, mem := t.mem } ∧ ∀ a : Word, t.memRead a = s.config.fill

/-- R15, R21, R35, R61: the host reads memory, the registers, the flags and the halt record while Halted and nothing
while Running. That this holds before the first reset too, where the state has no defined value (R37), is the model's own
(log 19, DESIGN CHOICE). -/
def Obligations.HostObservesBetweenRunsOnly : Prop :=
  (∀ (s : State) (b : Int) (a : Word), s.run = .running b →
    hostInspect s = none ∧ hostReadByte s a = none ∧ hostReadWord s a = none) ∧
  (∀ (s : State) (a : Word), s.run = .halted →
    hostInspect s = some ⟨s.pc, s.sp, s.a, s.x, s.y, s.flags, s.haltRecord⟩ ∧ hostReadByte s a = some (s.memRead a) ∧
    hostReadWord s a = some (s.memRead (a + 1) ++ s.memRead a))

/-- R31, R15, R201: no step changes the configuration, and while Running no step takes a move of the host: nothing
interrupts a run. -/
def Obligations.ConfigurationIsConstantAndTheHostWaits : Prop :=
  (∀ s t : State, step s = .next t → t.config = s.config) ∧
  (∀ (s t : State) (b : Int), s.run = .running b → step s = .next t →
    t.hostMoves = s.hostMoves ∧ t.everReset = s.everReset)

/-- R174, R170, R37: a step answers a next state unless it is the host's `run` before the first reset, which the model
refuses (log 9). The model's own: a Halted core with no move left answers itself (R187; log 8, DESIGN CHOICE), and a
Running one with its budget spent, which no run reaches, ends the run, BudgetExhausted with that budget left, and changes
nothing else (R176; log 15, DEDUCED). -/
def Obligations.StepsAnswerUnlessRunPrecedesReset : Prop :=
  (∀ s : State, (∃ t, step s = .next t) ∨
    (step s = .refused .runBeforeReset ∧ s.run = .halted ∧ s.everReset = false ∧
      ∃ b rest, s.hostMoves = .run b :: rest)) ∧
  (∀ s : State, s.run = .halted → s.hostMoves = [] → step s = .next s) ∧
  (∀ (s : State) (b : Int), s.run = .running b → b ≤ 0 →
    step s = .next { s with run := .halted, haltRecord := some ⟨.budgetExhausted, b⟩ })

/-- R103, R107, R108: a step of a run with budget left either leaves a smaller positive budget or ends the run, at most 5
below zero; so a run with budget 1 ends after one step. Costs: D6 (log 4). -/
def Obligations.StepsSpendBudgetAndOverspendAtMostFive : Prop :=
  ∀ (s t : State) (b : Int), s.run = .running b → 0 < b → step s = .next t →
    (∃ b', t.run = .running b' ∧ 0 < b' ∧ b' < b) ∨
    (t.run = .halted ∧ ∃ r, t.haltRecord = some r ∧ -5 ≤ r.budgetLeft ∧ r.budgetLeft < b)

/-- R105, R108, R38: how much budget is left, and how the last run ended, do not steer execution: from two states that
agree otherwise, both Running with budget left, a step gives states that agree otherwise. So a run split into several
executes the same instructions. -/
def Obligations.TheBudgetDoesNotSteerExecution : Prop :=
  ∀ (s s' t t' : State) (b b' : Int), s.run = .running b → s'.run = .running b' → 0 < b → 0 < b' →
    s.architectural = s'.architectural → step s = .next t → step s' = .next t' → t.architectural = t'.architectural

/-! ## Headline results -/

/-- R22, R210, R28, R91: the reset state of every configuration, and the state any reset of the core leaves, has the
invariant of `Inv`. Its clauses that memory is in canonical form (log 1, DESIGN CHOICE) and that a reset has happened
(log 9, DESIGN CHOICE) are the model's own. -/
def Obligations.InvHoldsAfterReset : Prop :=
  (∀ (cfg : Config) (moves : List HostMove), Inv (State.resetWith cfg moves)) ∧ Inv State.reset ∧
  ∀ s : State, Inv (resetCore s)

/-- R22, R210, R28, R91, R37: every step, the core's or the host's, keeps `Inv`: memory in canonical form, SP even, C, I,
D, B and V clear, a run in progress has budget left, a reset has happened. The model's own clauses: the canonical form
(log 1, DESIGN CHOICE), the reset bit (log 9, DESIGN CHOICE), and budget left at every step, since a step holds the loop's
test (log 12, DEDUCED). -/
def Obligations.EveryStepKeepsInv : Prop :=
  ∀ s t : State, Inv s → step s = .next t → Inv t

/-- R91, R107, R179: every run ends, after at least one and at most as many steps as its budget has units; it is Running
at every step before; the record of its end is justified by the state it leaves (the budget is used up; or 0 is left and
the byte before PC is HLT's; or the byte before PC has no row in the opcode table and the record names it and its
address) and by the state before its last step (the instruction at PC is not HLT; or is HLT; or there is none); at most 5
units are overspent (D6, log 4); the host's moves and the configuration are as at its start. The record's form is D13
(log 11), PC after an illegal opcode D13 (log 16), the budget test within the step log 12. -/
def Obligations.EveryRunEndsWithAJustifiedRecord : Prop :=
  ∀ (s : State) (b : Int), s.run = .running b → 0 < b →
    ∃ (k : Nat) (t : State) (r : HaltRecord), 1 ≤ k ∧ (k : Int) ≤ b ∧ Host.Core.run Sys2Proof.core k s = .next t ∧
      t.run = .halted ∧ t.haltRecord = some r ∧ r.justified t ∧ -5 ≤ r.budgetLeft ∧ r.budgetLeft < b ∧
      t.hostMoves = s.hostMoves ∧ t.config = s.config ∧
      (∃ u, Host.Core.run Sys2Proof.core (k - 1) s = .next u ∧ r.endsRunFrom u) ∧
      ∀ j < k, ∃ (u : State) (c : Int), Host.Core.run Sys2Proof.core j s = .next u ∧ u.run = .running c ∧ 0 < c
end

