-- ==== Sys2Proof/Laws/Bytes.lean ====
section
/-! SUPPORT. Taking a word apart and putting it together. -/

namespace Sys2Proof.Machine

/-- Bit `i` of the word with bytes `hi` and `lo`. -/
theorem getLsbD_wordOf (hi lo : Byte) (i : Nat) :
    (wordOf hi lo).getLsbD i = if i < 8 then lo.getLsbD i else hi.getLsbD (i - 8) := by
  have h : (hi ++ lo).getLsbD i = _ := BitVec.getLsbD_append
  simpa [wordOf] using h

@[simp] theorem lowByte_wordOf (hi lo : Byte) : lowByte (wordOf hi lo) = lo := by
  ext i h
  simp [lowByte, getLsbD_wordOf, h, BitVec.getLsbD_eq_getElem]

@[simp] theorem highByte_wordOf (hi lo : Byte) : highByte (wordOf hi lo) = hi := by
  ext i h
  simp [highByte, getLsbD_wordOf, h, BitVec.getLsbD_eq_getElem]

@[simp] theorem wordOf_high_low (w : Word) : wordOf (highByte w) (lowByte w) = w := by
  unfold wordOf highByte lowByte
  ext i hi
  simp only [BitVec.getElem_append, BitVec.getElem_extractLsb']
  split
  · simp [BitVec.getLsbD_eq_getElem hi]
  · have : 8 + (i - 8) = i := by omega
    simp [this, BitVec.getLsbD_eq_getElem hi]

theorem zext16_toNat (b : Byte) : (zext16 b).toNat = b.toNat := by
  have := b.isLt
  simp [zext16, BitVec.toNat_setWidth]
  omega

theorem highByte_toNat (w : Word) : (highByte w).toNat = w.toNat / 256 := by
  have := w.isLt
  simp [highByte, BitVec.extractLsb'_toNat, Nat.shiftRight_eq_div_pow]
  omega

theorem lowByte_toNat (w : Word) : (lowByte w).toNat = w.toNat % 256 := by
  simp [lowByte, BitVec.extractLsb'_toNat]

end Sys2Proof.Machine
end

