-- ==== Sys2Proof/Laws/Memory.lean ====
section
/-! SUPPORT. The basic laws of memory: a read after a write, and every operation keeps the canonical form. -/

namespace Sys2Proof.Machine

theorem Memory.read_insert (fill v : Byte) (m : Memory) (a b : Nat) :
    Memory.read fill (Memory.insert a v m) b = if a = b then v else Memory.read fill m b := by
  induction m with
  | nil => simp [Memory.insert, Memory.read]
  | cons c rest ih =>
    obtain ⟨k, w⟩ := c
    simp only [Memory.insert]
    split
    · simp [Memory.read]
    · split
      · rename_i h
        subst h
        simp only [Memory.read]
        split <;> rfl
      · simp only [Memory.read, ih]
        split <;> split <;> simp_all

theorem Memory.read_remove (fill : Byte) (m : Memory) (a b : Nat) :
    Memory.read fill (Memory.remove a m) b = if a = b then fill else Memory.read fill m b := by
  induction m with
  | nil => simp [Memory.remove, Memory.read]
  | cons c rest ih =>
    obtain ⟨k, w⟩ := c
    simp only [Memory.remove, List.filter_cons] at ih ⊢
    by_cases hk : k = a
    · subst hk
      simp only [bne_self_eq_false, Bool.false_eq_true, if_false, ih, Memory.read]
      split <;> rfl
    · simp only [bne_iff_ne, ne_eq, hk, not_false_eq_true, if_true, Memory.read, ih]
      split <;> split <;> simp_all

/-- A read after a write (spec/20_memory.md R42, R50). -/
theorem Memory.read_write (fill v : Byte) (m : Memory) (a b : Nat) :
    Memory.read fill (Memory.write fill m a v) b = if a = b then v else Memory.read fill m b := by
  unfold Memory.write
  split
  · rename_i h
    rw [Memory.read_remove, h]
  · exact Memory.read_insert fill v m a b

theorem Memory.wfFrom_weaken (fill : Byte) (m : Memory) {lo lo' : Nat} (h : Memory.wfFrom fill lo m = true) (hl : lo' ≤ lo) :
    Memory.wfFrom fill lo' m = true := by
  cases m with
  | nil => rfl
  | cons c rest =>
    obtain ⟨k, w⟩ := c
    simp only [Memory.wfFrom, Bool.and_eq_true, decide_eq_true_eq] at h ⊢
    exact ⟨⟨⟨by omega, h.1.1.2⟩, h.1.2⟩, h.2⟩

theorem Memory.wfFrom_insert (fill v : Byte) (a : Nat) (ha : a < 65536) (hv : v ≠ fill) (m : Memory) (lo : Nat)
    (h : Memory.wfFrom fill lo m = true) (hl : lo ≤ a) : Memory.wfFrom fill lo (Memory.insert a v m) = true := by
  induction m generalizing lo with
  | nil => simp [Memory.insert, Memory.wfFrom, hl, ha, hv]
  | cons c rest ih =>
    obtain ⟨k, w⟩ := c
    simp only [Memory.wfFrom, Bool.and_eq_true, decide_eq_true_eq] at h
    simp only [Memory.insert]
    split
    · rename_i hlt
      simp only [Memory.wfFrom, Bool.and_eq_true, decide_eq_true_eq]
      exact ⟨⟨⟨hl, ha⟩, hv⟩, ⟨⟨⟨hlt, h.1.1.2⟩, h.1.2⟩, h.2⟩⟩
    · split
      · rename_i heq
        subst heq
        simp only [Memory.wfFrom, Bool.and_eq_true, decide_eq_true_eq]
        exact ⟨⟨⟨hl, ha⟩, hv⟩, h.2⟩
      · simp only [Memory.wfFrom, Bool.and_eq_true, decide_eq_true_eq]
        exact ⟨h.1, ih (k + 1) h.2 (by omega)⟩

theorem Memory.wfFrom_remove (fill : Byte) (a : Nat) (m : Memory) (lo : Nat) (h : Memory.wfFrom fill lo m = true) :
    Memory.wfFrom fill lo (Memory.remove a m) = true := by
  induction m generalizing lo with
  | nil => rfl
  | cons c rest ih =>
    obtain ⟨k, w⟩ := c
    simp only [Memory.wfFrom, Bool.and_eq_true, decide_eq_true_eq] at h
    have hr : Memory.wfFrom fill (k + 1) (Memory.remove a rest) = true := ih _ h.2
    unfold Memory.remove at hr ⊢
    rw [List.filter_cons]
    split
    · simp only [Memory.wfFrom, Bool.and_eq_true, decide_eq_true_eq]
      exact ⟨h.1, hr⟩
    · exact Memory.wfFrom_weaken fill _ hr (by omega)

/-- A write keeps the canonical form. -/
theorem Memory.wf_write (fill v : Byte) (m : Memory) (a : Nat) (ha : a < 65536) (h : Memory.wf fill m = true) :
    Memory.wf fill (Memory.write fill m a v) = true := by
  unfold Memory.write
  split
  · exact Memory.wfFrom_remove fill a m 0 h
  · rename_i hv
    exact Memory.wfFrom_insert fill v a ha hv m 0 h (Nat.zero_le a)

/-- Reset memory has the canonical form. -/
theorem Memory.wf_nil (fill : Byte) : Memory.wf fill [] = true := rfl

/-- Nothing is listed: every cell reads as `FILL` (R45). -/
@[simp] theorem Memory.read_nil (fill : Byte) (a : Nat) : Memory.read fill [] a = fill := rfl

/-- `MemWrite(a, 1, v)` keeps the canonical form. -/
theorem memWrite_wf (s : State) (a : Word) (v : Byte) (h : Memory.wf s.config.fill s.mem = true) :
    Memory.wf (s.memWrite a v).config.fill (s.memWrite a v).mem = true :=
  Memory.wf_write _ _ _ _ a.isLt h

/-- `MemWrite(a, 2, v)` keeps the canonical form. -/
theorem memWriteWord_wf (s : State) (a v : Word) (h : Memory.wf s.config.fill s.mem = true) :
    Memory.wf (s.memWriteWord a v).config.fill (s.memWriteWord a v).mem = true :=
  memWrite_wf _ _ _ (memWrite_wf s a _ h)

/-- Every byte after `MemWrite(a, 1, v)`. -/
theorem memRead_memWrite (s : State) (a b : Word) (v : Byte) :
    (s.memWrite a v).memRead b = if a = b then v else s.memRead b := by
  unfold State.memRead State.memWrite
  rw [Memory.read_write]
  simp only [BitVec.toNat_inj]

/-- Every byte after `MemWrite(a, 2, v)`. -/
theorem memRead_memWriteWord (s : State) (a v b : Word) :
    (s.memWriteWord a v).memRead b =
      if a + 1 = b then highByte v else if a = b then lowByte v else s.memRead b := by
  unfold State.memWriteWord
  rw [memRead_memWrite, memRead_memWrite]

end Sys2Proof.Machine
end

