-- ==== Sys2Proof/Laws/State.lean ====
section
/-! SUPPORT. One lemma per field of each update of State, so that no proof unfolds a record update. Only the field an
update names changes. -/

namespace Sys2Proof.Machine

/-! ## setPC -/

@[simp] theorem setPC_config (s : State) (v : Word) : (s.setPC v).config = s.config := rfl
@[simp] theorem setPC_pc (s : State) (v : Word) : (s.setPC v).pc = v := rfl
@[simp] theorem setPC_sp (s : State) (v : Word) : (s.setPC v).sp = s.sp := rfl
@[simp] theorem setPC_a (s : State) (v : Word) : (s.setPC v).a = s.a := rfl
@[simp] theorem setPC_x (s : State) (v : Word) : (s.setPC v).x = s.x := rfl
@[simp] theorem setPC_y (s : State) (v : Word) : (s.setPC v).y = s.y := rfl
@[simp] theorem setPC_flags (s : State) (v : Word) : (s.setPC v).flags = s.flags := rfl
@[simp] theorem setPC_mem (s : State) (v : Word) : (s.setPC v).mem = s.mem := rfl
@[simp] theorem setPC_run (s : State) (v : Word) : (s.setPC v).run = s.run := rfl
@[simp] theorem setPC_haltRecord (s : State) (v : Word) : (s.setPC v).haltRecord = s.haltRecord := rfl
@[simp] theorem setPC_everReset (s : State) (v : Word) : (s.setPC v).everReset = s.everReset := rfl
@[simp] theorem setPC_hostMoves (s : State) (v : Word) : (s.setPC v).hostMoves = s.hostMoves := rfl
@[simp] theorem memRead_setPC (s : State) (v : Word) (b : Word) : (s.setPC v).memRead b = s.memRead b := rfl
@[simp] theorem memReadWord_setPC (s : State) (v : Word) (b : Word) : (s.setPC v).memReadWord b = s.memReadWord b := rfl

/-! ## setSP -/

@[simp] theorem setSP_config (s : State) (v : Byte) : (s.setSP v).config = s.config := rfl
@[simp] theorem setSP_pc (s : State) (v : Byte) : (s.setSP v).pc = s.pc := rfl
@[simp] theorem setSP_sp (s : State) (v : Byte) : (s.setSP v).sp = v := rfl
@[simp] theorem setSP_a (s : State) (v : Byte) : (s.setSP v).a = s.a := rfl
@[simp] theorem setSP_x (s : State) (v : Byte) : (s.setSP v).x = s.x := rfl
@[simp] theorem setSP_y (s : State) (v : Byte) : (s.setSP v).y = s.y := rfl
@[simp] theorem setSP_flags (s : State) (v : Byte) : (s.setSP v).flags = s.flags := rfl
@[simp] theorem setSP_mem (s : State) (v : Byte) : (s.setSP v).mem = s.mem := rfl
@[simp] theorem setSP_run (s : State) (v : Byte) : (s.setSP v).run = s.run := rfl
@[simp] theorem setSP_haltRecord (s : State) (v : Byte) : (s.setSP v).haltRecord = s.haltRecord := rfl
@[simp] theorem setSP_everReset (s : State) (v : Byte) : (s.setSP v).everReset = s.everReset := rfl
@[simp] theorem setSP_hostMoves (s : State) (v : Byte) : (s.setSP v).hostMoves = s.hostMoves := rfl
@[simp] theorem memRead_setSP (s : State) (v : Byte) (b : Word) : (s.setSP v).memRead b = s.memRead b := rfl
@[simp] theorem memReadWord_setSP (s : State) (v : Byte) (b : Word) : (s.setSP v).memReadWord b = s.memReadWord b := rfl

/-! ## setA -/

@[simp] theorem setA_config (s : State) (v : Byte) : (s.setA v).config = s.config := rfl
@[simp] theorem setA_pc (s : State) (v : Byte) : (s.setA v).pc = s.pc := rfl
@[simp] theorem setA_sp (s : State) (v : Byte) : (s.setA v).sp = s.sp := rfl
@[simp] theorem setA_a (s : State) (v : Byte) : (s.setA v).a = v := rfl
@[simp] theorem setA_x (s : State) (v : Byte) : (s.setA v).x = s.x := rfl
@[simp] theorem setA_y (s : State) (v : Byte) : (s.setA v).y = s.y := rfl
@[simp] theorem setA_flags (s : State) (v : Byte) : (s.setA v).flags = s.flags := rfl
@[simp] theorem setA_mem (s : State) (v : Byte) : (s.setA v).mem = s.mem := rfl
@[simp] theorem setA_run (s : State) (v : Byte) : (s.setA v).run = s.run := rfl
@[simp] theorem setA_haltRecord (s : State) (v : Byte) : (s.setA v).haltRecord = s.haltRecord := rfl
@[simp] theorem setA_everReset (s : State) (v : Byte) : (s.setA v).everReset = s.everReset := rfl
@[simp] theorem setA_hostMoves (s : State) (v : Byte) : (s.setA v).hostMoves = s.hostMoves := rfl
@[simp] theorem memRead_setA (s : State) (v : Byte) (b : Word) : (s.setA v).memRead b = s.memRead b := rfl
@[simp] theorem memReadWord_setA (s : State) (v : Byte) (b : Word) : (s.setA v).memReadWord b = s.memReadWord b := rfl

/-! ## setX -/

@[simp] theorem setX_config (s : State) (v : Byte) : (s.setX v).config = s.config := rfl
@[simp] theorem setX_pc (s : State) (v : Byte) : (s.setX v).pc = s.pc := rfl
@[simp] theorem setX_sp (s : State) (v : Byte) : (s.setX v).sp = s.sp := rfl
@[simp] theorem setX_a (s : State) (v : Byte) : (s.setX v).a = s.a := rfl
@[simp] theorem setX_x (s : State) (v : Byte) : (s.setX v).x = v := rfl
@[simp] theorem setX_y (s : State) (v : Byte) : (s.setX v).y = s.y := rfl
@[simp] theorem setX_flags (s : State) (v : Byte) : (s.setX v).flags = s.flags := rfl
@[simp] theorem setX_mem (s : State) (v : Byte) : (s.setX v).mem = s.mem := rfl
@[simp] theorem setX_run (s : State) (v : Byte) : (s.setX v).run = s.run := rfl
@[simp] theorem setX_haltRecord (s : State) (v : Byte) : (s.setX v).haltRecord = s.haltRecord := rfl
@[simp] theorem setX_everReset (s : State) (v : Byte) : (s.setX v).everReset = s.everReset := rfl
@[simp] theorem setX_hostMoves (s : State) (v : Byte) : (s.setX v).hostMoves = s.hostMoves := rfl
@[simp] theorem memRead_setX (s : State) (v : Byte) (b : Word) : (s.setX v).memRead b = s.memRead b := rfl
@[simp] theorem memReadWord_setX (s : State) (v : Byte) (b : Word) : (s.setX v).memReadWord b = s.memReadWord b := rfl

/-! ## setY -/

@[simp] theorem setY_config (s : State) (v : Byte) : (s.setY v).config = s.config := rfl
@[simp] theorem setY_pc (s : State) (v : Byte) : (s.setY v).pc = s.pc := rfl
@[simp] theorem setY_sp (s : State) (v : Byte) : (s.setY v).sp = s.sp := rfl
@[simp] theorem setY_a (s : State) (v : Byte) : (s.setY v).a = s.a := rfl
@[simp] theorem setY_x (s : State) (v : Byte) : (s.setY v).x = s.x := rfl
@[simp] theorem setY_y (s : State) (v : Byte) : (s.setY v).y = v := rfl
@[simp] theorem setY_flags (s : State) (v : Byte) : (s.setY v).flags = s.flags := rfl
@[simp] theorem setY_mem (s : State) (v : Byte) : (s.setY v).mem = s.mem := rfl
@[simp] theorem setY_run (s : State) (v : Byte) : (s.setY v).run = s.run := rfl
@[simp] theorem setY_haltRecord (s : State) (v : Byte) : (s.setY v).haltRecord = s.haltRecord := rfl
@[simp] theorem setY_everReset (s : State) (v : Byte) : (s.setY v).everReset = s.everReset := rfl
@[simp] theorem setY_hostMoves (s : State) (v : Byte) : (s.setY v).hostMoves = s.hostMoves := rfl
@[simp] theorem memRead_setY (s : State) (v : Byte) (b : Word) : (s.setY v).memRead b = s.memRead b := rfl
@[simp] theorem memReadWord_setY (s : State) (v : Byte) (b : Word) : (s.setY v).memReadWord b = s.memReadWord b := rfl

/-! ## setZN -/

@[simp] theorem setZN_config (s : State) (v : Byte) : (s.setZN v).config = s.config := rfl
@[simp] theorem setZN_pc (s : State) (v : Byte) : (s.setZN v).pc = s.pc := rfl
@[simp] theorem setZN_sp (s : State) (v : Byte) : (s.setZN v).sp = s.sp := rfl
@[simp] theorem setZN_a (s : State) (v : Byte) : (s.setZN v).a = s.a := rfl
@[simp] theorem setZN_x (s : State) (v : Byte) : (s.setZN v).x = s.x := rfl
@[simp] theorem setZN_y (s : State) (v : Byte) : (s.setZN v).y = s.y := rfl
@[simp] theorem setZN_flags (s : State) (v : Byte) : (s.setZN v).flags = s.flags.setZN v := rfl
@[simp] theorem setZN_mem (s : State) (v : Byte) : (s.setZN v).mem = s.mem := rfl
@[simp] theorem setZN_run (s : State) (v : Byte) : (s.setZN v).run = s.run := rfl
@[simp] theorem setZN_haltRecord (s : State) (v : Byte) : (s.setZN v).haltRecord = s.haltRecord := rfl
@[simp] theorem setZN_everReset (s : State) (v : Byte) : (s.setZN v).everReset = s.everReset := rfl
@[simp] theorem setZN_hostMoves (s : State) (v : Byte) : (s.setZN v).hostMoves = s.hostMoves := rfl
@[simp] theorem memRead_setZN (s : State) (v : Byte) (b : Word) : (s.setZN v).memRead b = s.memRead b := rfl
@[simp] theorem memReadWord_setZN (s : State) (v : Byte) (b : Word) : (s.setZN v).memReadWord b = s.memReadWord b := rfl

/-! ## tick -/

@[simp] theorem tick_config (s : State) (n : Int) : (s.tick n).config = s.config := rfl
@[simp] theorem tick_pc (s : State) (n : Int) : (s.tick n).pc = s.pc := rfl
@[simp] theorem tick_sp (s : State) (n : Int) : (s.tick n).sp = s.sp := rfl
@[simp] theorem tick_a (s : State) (n : Int) : (s.tick n).a = s.a := rfl
@[simp] theorem tick_x (s : State) (n : Int) : (s.tick n).x = s.x := rfl
@[simp] theorem tick_y (s : State) (n : Int) : (s.tick n).y = s.y := rfl
@[simp] theorem tick_flags (s : State) (n : Int) : (s.tick n).flags = s.flags := rfl
@[simp] theorem tick_mem (s : State) (n : Int) : (s.tick n).mem = s.mem := rfl
@[simp] theorem tick_run (s : State) (n : Int) : (s.tick n).run = s.run.debit n := rfl
@[simp] theorem tick_haltRecord (s : State) (n : Int) : (s.tick n).haltRecord = s.haltRecord := rfl
@[simp] theorem tick_everReset (s : State) (n : Int) : (s.tick n).everReset = s.everReset := rfl
@[simp] theorem tick_hostMoves (s : State) (n : Int) : (s.tick n).hostMoves = s.hostMoves := rfl
@[simp] theorem memRead_tick (s : State) (n : Int) (b : Word) : (s.tick n).memRead b = s.memRead b := rfl
@[simp] theorem memReadWord_tick (s : State) (n : Int) (b : Word) : (s.tick n).memReadWord b = s.memReadWord b := rfl

/-! ## memWrite -/

@[simp] theorem memWrite_config (s : State) (a : Word) (v : Byte) : (s.memWrite a v).config = s.config := rfl
@[simp] theorem memWrite_pc (s : State) (a : Word) (v : Byte) : (s.memWrite a v).pc = s.pc := rfl
@[simp] theorem memWrite_sp (s : State) (a : Word) (v : Byte) : (s.memWrite a v).sp = s.sp := rfl
@[simp] theorem memWrite_a (s : State) (a : Word) (v : Byte) : (s.memWrite a v).a = s.a := rfl
@[simp] theorem memWrite_x (s : State) (a : Word) (v : Byte) : (s.memWrite a v).x = s.x := rfl
@[simp] theorem memWrite_y (s : State) (a : Word) (v : Byte) : (s.memWrite a v).y = s.y := rfl
@[simp] theorem memWrite_flags (s : State) (a : Word) (v : Byte) : (s.memWrite a v).flags = s.flags := rfl
@[simp] theorem memWrite_mem (s : State) (a : Word) (v : Byte) : (s.memWrite a v).mem = Memory.write s.config.fill s.mem a.toNat v := rfl
@[simp] theorem memWrite_run (s : State) (a : Word) (v : Byte) : (s.memWrite a v).run = s.run := rfl
@[simp] theorem memWrite_haltRecord (s : State) (a : Word) (v : Byte) : (s.memWrite a v).haltRecord = s.haltRecord := rfl
@[simp] theorem memWrite_everReset (s : State) (a : Word) (v : Byte) : (s.memWrite a v).everReset = s.everReset := rfl
@[simp] theorem memWrite_hostMoves (s : State) (a : Word) (v : Byte) : (s.memWrite a v).hostMoves = s.hostMoves := rfl

/-! ## memWriteWord -/

@[simp] theorem memWriteWord_config (s : State) (a v : Word) : (s.memWriteWord a v).config = s.config := rfl
@[simp] theorem memWriteWord_pc (s : State) (a v : Word) : (s.memWriteWord a v).pc = s.pc := rfl
@[simp] theorem memWriteWord_sp (s : State) (a v : Word) : (s.memWriteWord a v).sp = s.sp := rfl
@[simp] theorem memWriteWord_a (s : State) (a v : Word) : (s.memWriteWord a v).a = s.a := rfl
@[simp] theorem memWriteWord_x (s : State) (a v : Word) : (s.memWriteWord a v).x = s.x := rfl
@[simp] theorem memWriteWord_y (s : State) (a v : Word) : (s.memWriteWord a v).y = s.y := rfl
@[simp] theorem memWriteWord_flags (s : State) (a v : Word) : (s.memWriteWord a v).flags = s.flags := rfl
@[simp] theorem memWriteWord_run (s : State) (a v : Word) : (s.memWriteWord a v).run = s.run := rfl
@[simp] theorem memWriteWord_haltRecord (s : State) (a v : Word) : (s.memWriteWord a v).haltRecord = s.haltRecord := rfl
@[simp] theorem memWriteWord_everReset (s : State) (a v : Word) : (s.memWriteWord a v).everReset = s.everReset := rfl
@[simp] theorem memWriteWord_hostMoves (s : State) (a v : Word) : (s.memWriteWord a v).hostMoves = s.hostMoves := rfl

/-! ## Flags -/

@[simp] theorem Flags.setZN_c (f : Flags) (v : Byte) : (f.setZN v).c = f.c := rfl
@[simp] theorem Flags.setZN_z (f : Flags) (v : Byte) : (f.setZN v).z = zeroFlag v := rfl
@[simp] theorem Flags.setZN_i (f : Flags) (v : Byte) : (f.setZN v).i = f.i := rfl
@[simp] theorem Flags.setZN_d (f : Flags) (v : Byte) : (f.setZN v).d = f.d := rfl
@[simp] theorem Flags.setZN_b (f : Flags) (v : Byte) : (f.setZN v).b = f.b := rfl
@[simp] theorem Flags.setZN_v (f : Flags) (v : Byte) : (f.setZN v).v = f.v := rfl
@[simp] theorem Flags.setZN_n (f : Flags) (v : Byte) : (f.setZN v).n = negativeFlag v := rfl

/-! ## Run state -/

@[simp] theorem RunState.debit_running (n b : Int) : (RunState.running b).debit n = .running (b - n) := rfl
@[simp] theorem RunState.debit_halted (n : Int) : RunState.halted.debit n = .halted := rfl
/-- A debit neither ends nor starts a run. -/
@[simp] theorem RunState.debit_eq_halted (r : RunState) (n : Int) : r.debit n = .halted ↔ r = .halted := by
  cases r <;> simp
@[simp] theorem RunState.forceZero_running (b : Int) : (RunState.running b).forceZero = .running 0 := rfl
@[simp] theorem RunState.forceZero_halted : RunState.halted.forceZero = .halted := rfl

theorem RunState.debit_debit (r : RunState) (m n : Int) : (r.debit m).debit n = r.debit (m + n) := by
  cases r
  · rfl
  · simp only [debit_running, running.injEq]
    omega

theorem tick_tick (s : State) (m n : Int) : (s.tick m).tick n = s.tick (m + n) := by
  simp [State.tick, RunState.debit_debit]

end Sys2Proof.Machine
end

