-- ==== Sys2Proof/Laws/Ops.lean ====
section
/-! SUPPORT. What each shared operation does, said once: fetching, the resolvers, halt entry, the loop test, starting a
run, reset. -/

namespace Sys2Proof.Machine

/-! ## Fetching -/

/-- `n` byte fetches move PC by `n` and debit `n`. -/
theorem fetched_eq (n : Nat) (s : State) : fetched n s = (s.setPC (s.pc + BitVec.ofNat 16 n)).tick n := by
  induction n generalizing s with
  | zero =>
    have hz : s.run.debit 0 = s.run := by cases s.run <;> simp
    simp [fetched, State.setPC, State.tick, hz]
  | succ n ih =>
    have hp : s.pc + 1 + BitVec.ofNat 16 n = s.pc + BitVec.ofNat 16 (n + 1) := by
      rw [BitVec.add_assoc, Nat.add_comm n 1, BitVec.ofNat_add]
      rfl
    have hr : (s.run.debit 1).debit n = s.run.debit ((n : Int) + 1) := by
      rw [RunState.debit_debit, Int.add_comm]
    rw [fetched, ih]
    simp [fetchByte, State.setPC, State.tick, hr]
    exact hp

@[simp] theorem fetched_pc (n : Nat) (s : State) : (fetched n s).pc = s.pc + BitVec.ofNat 16 n := by rw [fetched_eq]; rfl
@[simp] theorem fetched_run (n : Nat) (s : State) : (fetched n s).run = s.run.debit n := by rw [fetched_eq]; rfl
@[simp] theorem fetched_config (n : Nat) (s : State) : (fetched n s).config = s.config := by rw [fetched_eq]; rfl
@[simp] theorem fetched_sp (n : Nat) (s : State) : (fetched n s).sp = s.sp := by rw [fetched_eq]; rfl
@[simp] theorem fetched_a (n : Nat) (s : State) : (fetched n s).a = s.a := by rw [fetched_eq]; rfl
@[simp] theorem fetched_x (n : Nat) (s : State) : (fetched n s).x = s.x := by rw [fetched_eq]; rfl
@[simp] theorem fetched_y (n : Nat) (s : State) : (fetched n s).y = s.y := by rw [fetched_eq]; rfl
@[simp] theorem fetched_flags (n : Nat) (s : State) : (fetched n s).flags = s.flags := by rw [fetched_eq]; rfl
@[simp] theorem fetched_mem (n : Nat) (s : State) : (fetched n s).mem = s.mem := by rw [fetched_eq]; rfl
@[simp] theorem fetched_haltRecord (n : Nat) (s : State) : (fetched n s).haltRecord = s.haltRecord := by
  rw [fetched_eq]; rfl
@[simp] theorem fetched_everReset (n : Nat) (s : State) : (fetched n s).everReset = s.everReset := by
  rw [fetched_eq]; rfl
@[simp] theorem fetched_hostMoves (n : Nat) (s : State) : (fetched n s).hostMoves = s.hostMoves := by
  rw [fetched_eq]; rfl
@[simp] theorem fetched_memRead (n : Nat) (s : State) (a : Word) : (fetched n s).memRead a = s.memRead a := by
  rw [fetched_eq]; rfl
@[simp] theorem fetched_memReadWord (n : Nat) (s : State) (a : Word) : (fetched n s).memReadWord a = s.memReadWord a := by
  rw [fetched_eq]; rfl

/-- The window holds the bytes at PC and the two addresses after it, modulo 65536. -/
theorem fetchWindow_eq (s : State) :
    fetchWindow s = [s.memRead s.pc, s.memRead (s.pc + 1), s.memRead (s.pc + 1 + 1)] := rfl

/-! ## The resolvers: each answers an address and debits an amount -/

/-- What a resolver may do: answer an address and debit. -/
def Resolves (m : State → Word × State) (s : State) : Prop := ∃ ea k, m s = (ea, s.tick k)

theorem tick_zero (s : State) : s.tick 0 = s := by
  have hz : s.run.debit 0 = s.run := by cases s.run <;> simp
  simp [State.tick, hz]

theorem indexed_eq (b : Word) (i : Byte) (s : State) :
    indexed b i s = (b + zext16 i, s.tick (if crossed b (b + zext16 i) then 1 else 0)) := by
  unfold indexed
  split <;> simp_all [tick_zero]

theorem zeroPage_resolves (d : Byte) (s : State) : Resolves (zeroPage d) s := ⟨_, 0, by rw [tick_zero]; rfl⟩
theorem zeroPageX_resolves (d : Byte) (s : State) : Resolves (zeroPageX d) s := ⟨_, _, rfl⟩
theorem zeroPageY_resolves (d : Byte) (s : State) : Resolves (zeroPageY d) s := ⟨_, _, rfl⟩
theorem absolute_resolves (a : Word) (s : State) : Resolves (absolute a) s := ⟨_, 0, by rw [tick_zero]; rfl⟩
theorem absoluteX_resolves (a : Word) (s : State) : Resolves (absoluteX a) s := ⟨_, _, indexed_eq ..⟩
theorem absoluteY_resolves (a : Word) (s : State) : Resolves (absoluteY a) s := ⟨_, _, indexed_eq ..⟩
theorem indirectX_resolves (d : Byte) (s : State) : Resolves (indirectX d) s :=
  ⟨_, _, by rw [← tick_tick]; rfl⟩
theorem indirectY_resolves (d : Byte) (s : State) : Resolves (indirectY d) s :=
  ⟨_, _, by rw [← tick_tick]; exact indexed_eq ..⟩

/-! ## Halt entry, the loop test, starting a run, reset -/

theorem haltEntry_running (cause : HaltCause) (s : State) (b : Int) (h : s.run = .running b) :
    haltEntry cause s = { s with run := .halted, haltRecord := some ⟨cause, b⟩ } := by
  simp [haltEntry, h]

theorem haltEntry_halted (cause : HaltCause) (s : State) (h : s.run = .halted) : haltEntry cause s = s := by
  simp [haltEntry, h]

/-- A halt changes nothing but the run state and the halt record (R177). -/
theorem haltEntry_eq (cause : HaltCause) (s : State) :
    ∃ r, haltEntry cause s = { s with run := .halted, haltRecord := r } := by
  unfold haltEntry
  split
  · rename_i h
    exact ⟨s.haltRecord, by rw [← h]⟩
  · exact ⟨_, rfl⟩

theorem loopTest_positive (s : State) (b : Int) (h : s.run = .running b) (hb : 0 < b) : loopTest s = s := by
  have : ¬ b ≤ 0 := by omega
  simp [loopTest, h, this]

theorem loopTest_exhausted (s : State) (b : Int) (h : s.run = .running b) (hb : b ≤ 0) :
    loopTest s = { s with run := .halted, haltRecord := some ⟨.budgetExhausted, b⟩ } := by
  simp [loopTest, h, hb, haltEntry]

theorem loopTest_halted (s : State) (h : s.run = .halted) : loopTest s = s := by
  simp [loopTest, h]

/-- The loop test leaves the state alone or ends the run. -/
theorem loopTest_cases (s : State) :
    (loopTest s = s ∧ ∀ b, s.run = .running b → 0 < b) ∨
    ∃ b, s.run = .running b ∧ b ≤ 0 ∧ loopTest s = { s with run := .halted, haltRecord := some ⟨.budgetExhausted, b⟩ } := by
  cases h : s.run with
  | halted => exact .inl ⟨loopTest_halted s h, by simp⟩
  | running b =>
    by_cases hb : 0 < b
    · exact .inl ⟨loopTest_positive s b h hb, by simp [hb]⟩
    · exact .inr ⟨b, rfl, by omega, loopTest_exhausted s b h (by omega)⟩

theorem takeIllegalOpcode_running (s : State) (b : Int) (h : s.run = .running b) :
    takeIllegalOpcode s = { s with pc := s.pc + 1, run := .halted,
                                   haltRecord := some ⟨.illegalOpcode (s.memRead s.pc) s.pc, b - 1⟩ } := by
  simp [takeIllegalOpcode, fetchByte, haltEntry, h, State.setPC, State.tick]

/-- Reset of the core is the reset state of its own configuration, with the host's moves kept. -/
theorem resetCore_eq (s : State) : resetCore s = State.resetWith s.config s.hostMoves := rfl

theorem memRead_resetWith (cfg : Config) (ms : List HostMove) (a : Word) : (State.resetWith cfg ms).memRead a = cfg.fill :=
  rfl

theorem memRead_memReset (s : State) (a : Word) : (memReset s).memRead a = s.config.fill := rfl

end Sys2Proof.Machine
end

