-- ==== Sys2Proof/Laws/Exec.lean ====
section
/-! SUPPORT. What an instruction can do, said once: `exec_cases` lists the shapes of next state, and later proofs split on
it instead of unfolding the meanings. -/

namespace Sys2Proof.Machine

/-- The shapes of what an instruction answers: a load or increment of A, X or Y, a plain jump, a call, a return, a pure
tick, a halt. `n` is the length of the instruction, `k` what it debits beyond its fetches. -/
inductive ExecShape (s : State) : State → Prop where
  | writeA (n : Nat) (k k' : Int) (v : Byte) : ExecShape s (((((fetched n s).tick k).setA v).setZN v).tick k')
  | writeX (n : Nat) (k k' : Int) (v : Byte) : ExecShape s (((((fetched n s).tick k).setX v).setZN v).tick k')
  | writeY (n : Nat) (k k' : Int) (v : Byte) : ExecShape s (((((fetched n s).tick k).setY v).setZN v).tick k')
  | jump (k : Int) (target : Word) : ExecShape s (((fetched 3 s).tick k).setPC target)
  | call (target : Word) : ExecShape s
      (((((((fetched 3 s).memWriteWord (stackAddr s.sp) (s.pc + 3)).tick 2).setSP (s.sp + 2)).setPC target)).tick 1)
  | ret : ExecShape s
      (((((fetched 1 s).tick 2).setSP (s.sp - 2)).setPC (s.memReadWord (stackAddr (s.sp - 2)))).tick 3)
  | pass : ExecShape s ((fetched 1 s).tick 1)
  | halt : ExecShape s (haltEntry .haltOpcode { fetched 1 s with run := s.run.forceZero })

theorem loadA_shape {m : State → Word × State} {n : Nat} {s t : State} (hm : Resolves m (fetched n s))
    (h : loadA (operandByte (m (fetched n s))) = .next t) : ExecShape s t := by
  obtain ⟨ea, k, hk⟩ := hm
  rw [hk] at h
  cases h
  have h2 := ExecShape.writeA (s := s) n (k + 1) 0 ((fetched n s).memRead ea)
  rw [tick_zero, ← tick_tick] at h2
  exact h2

theorem loadX_shape {m : State → Word × State} {n : Nat} {s t : State} (hm : Resolves m (fetched n s))
    (h : loadX (operandByte (m (fetched n s))) = .next t) : ExecShape s t := by
  obtain ⟨ea, k, hk⟩ := hm
  rw [hk] at h
  cases h
  have h2 := ExecShape.writeX (s := s) n (k + 1) 0 ((fetched n s).memRead ea)
  rw [tick_zero, ← tick_tick] at h2
  exact h2

theorem loadY_shape {m : State → Word × State} {n : Nat} {s t : State} (hm : Resolves m (fetched n s))
    (h : loadY (operandByte (m (fetched n s))) = .next t) : ExecShape s t := by
  obtain ⟨ea, k, hk⟩ := hm
  rw [hk] at h
  cases h
  have h2 := ExecShape.writeY (s := s) n (k + 1) 0 ((fetched n s).memRead ea)
  rw [tick_zero, ← tick_tick] at h2
  exact h2

/-- What an instruction can do when it answers a next state. -/
theorem exec_cases (i : Instr) (s t : State) (h : exec i s = .next t) : ExecShape s t := by
  cases i with
  | ldaImm d =>
    cases h
    have h2 := ExecShape.writeA (s := s) 2 0 0 d
    rwa [tick_zero, tick_zero] at h2
  | ldaZp d => exact loadA_shape (zeroPage_resolves _ _) h
  | ldaZpX d => exact loadA_shape (zeroPageX_resolves _ _) h
  | ldaAbs a => exact loadA_shape (absolute_resolves _ _) h
  | ldaAbsX a => exact loadA_shape (absoluteX_resolves _ _) h
  | ldaAbsY a => exact loadA_shape (absoluteY_resolves _ _) h
  | ldaIndX d => exact loadA_shape (indirectX_resolves _ _) h
  | ldaIndY d => exact loadA_shape (indirectY_resolves _ _) h
  | ldxImm d =>
    cases h
    have h2 := ExecShape.writeX (s := s) 2 0 0 d
    rwa [tick_zero, tick_zero] at h2
  | ldxZp d => exact loadX_shape (zeroPage_resolves _ _) h
  | ldxZpY d => exact loadX_shape (zeroPageY_resolves _ _) h
  | ldxAbs a => exact loadX_shape (absolute_resolves _ _) h
  | ldxAbsY a => exact loadX_shape (absoluteY_resolves _ _) h
  | ldyImm d =>
    cases h
    have h2 := ExecShape.writeY (s := s) 2 0 0 d
    rwa [tick_zero, tick_zero] at h2
  | ldyZp d => exact loadY_shape (zeroPage_resolves _ _) h
  | ldyZpX d => exact loadY_shape (zeroPageX_resolves _ _) h
  | ldyAbs a => exact loadY_shape (absolute_resolves _ _) h
  | ldyAbsX a => exact loadY_shape (absoluteX_resolves _ _) h
  | jmpAbs a =>
    cases h
    have h2 := ExecShape.jump (s := s) 0 a
    rwa [tick_zero] at h2
  | jmpInd a =>
    cases h
    exact ExecShape.jump (s := s) 2 _
  | jsr a =>
    cases h
    simpa [absolute, writeWord] using ExecShape.call (s := s) a
  | rts =>
    cases h
    simpa [readWord] using ExecShape.ret (s := s)
  | nop =>
    cases h
    exact ExecShape.pass (s := s)
  | hlt =>
    have h2 := ExecShape.halt (s := s)
    simp only [exec, execHlt, fetched_run, Host.Outcome.next.injEq] at h
    have hr : (s.run.debit (1 : Nat)).forceZero = s.run.forceZero := by cases s.run <;> rfl
    rw [hr] at h
    exact h ▸ h2
  | inx =>
    cases h
    have h2 := ExecShape.writeX (s := s) 1 0 1 (s.x + 1)
    rwa [tick_zero] at h2
  | iny =>
    cases h
    have h2 := ExecShape.writeY (s := s) 1 0 1 (s.y + 1)
    rwa [tick_zero] at h2

/-- Every instruction but HLT leaves the halt record, and whether a run is in progress, as they were. -/
theorem exec_keeps_running {i : Instr} {s t : State} (hi : i ≠ .hlt) (h : exec i s = .next t) :
    t.haltRecord = s.haltRecord ∧ (t.run = .halted ↔ s.run = .halted) := by
  cases i with
  | hlt => exact absurd rfl hi
  | _ =>
    cases h
    simp [operandByte, zeroPage, zeroPageX, zeroPageY, absolute, absoluteX, absoluteY, indirectX, indirectY, readWord,
      indexed_eq, readByte, writeWord]

/-- HLT while Running: PC moves past it, the run ends with nothing left, nothing else changes (R161). -/
theorem execHlt_running (s : State) (b : Int) (hr : s.run = .running b) :
    exec .hlt s = .next { s with pc := s.pc + 1, run := .halted, haltRecord := some ⟨.haltOpcode, 0⟩ } := by
  simp [exec, execHlt, fetched_eq, haltEntry, hr, State.tick, State.setPC, RunState.forceZero]

/-- HLT while Halted: there is no run to end. -/
theorem execHlt_halted (s : State) (hr : s.run = .halted) : exec .hlt s = .next { s with pc := s.pc + 1 } := by
  simp [exec, execHlt, fetched_eq, haltEntry, hr, State.tick, State.setPC, RunState.forceZero]

end Sys2Proof.Machine
end

