-- ==== Sys2Proof/Laws/PerInstr.lean ====
section
/-! SUPPORT. Facts made once per instruction, about the instruction as syntax. -/

namespace Sys2Proof.Laws.EncodesWellFormed

/-- The bytes of the instruction are one well-formed instruction string: a listed opcode and the length that opcode
fixes (spec/30_encoding.md R70, R77). -/
def Statement (i : Instr) : Prop := wellFormedBytes (encode i) = true

theorem ldaImm (v : Byte) : Statement (.ldaImm v) := rfl
theorem ldaZp (v : Byte) : Statement (.ldaZp v) := rfl
theorem ldaZpX (v : Byte) : Statement (.ldaZpX v) := rfl
theorem ldaAbs (v : Word) : Statement (.ldaAbs v) := rfl
theorem ldaAbsX (v : Word) : Statement (.ldaAbsX v) := rfl
theorem ldaAbsY (v : Word) : Statement (.ldaAbsY v) := rfl
theorem ldaIndX (v : Byte) : Statement (.ldaIndX v) := rfl
theorem ldaIndY (v : Byte) : Statement (.ldaIndY v) := rfl
theorem ldxImm (v : Byte) : Statement (.ldxImm v) := rfl
theorem ldxZp (v : Byte) : Statement (.ldxZp v) := rfl
theorem ldxZpY (v : Byte) : Statement (.ldxZpY v) := rfl
theorem ldxAbs (v : Word) : Statement (.ldxAbs v) := rfl
theorem ldxAbsY (v : Word) : Statement (.ldxAbsY v) := rfl
theorem ldyImm (v : Byte) : Statement (.ldyImm v) := rfl
theorem ldyZp (v : Byte) : Statement (.ldyZp v) := rfl
theorem ldyZpX (v : Byte) : Statement (.ldyZpX v) := rfl
theorem ldyAbs (v : Word) : Statement (.ldyAbs v) := rfl
theorem ldyAbsX (v : Word) : Statement (.ldyAbsX v) := rfl
theorem jmpAbs (v : Word) : Statement (.jmpAbs v) := rfl
theorem jmpInd (v : Word) : Statement (.jmpInd v) := rfl
theorem jsr (v : Word) : Statement (.jsr v) := rfl
theorem rts : Statement .rts := rfl
theorem nop : Statement .nop := rfl
theorem hlt : Statement .hlt := rfl
theorem inx : Statement .inx := rfl
theorem iny : Statement .iny := rfl

end Sys2Proof.Laws.EncodesWellFormed
end

