-- ==== Sys2Proof/Laws/Step.lean ====
section
/-! SUPPORT. What a step can do, said once (`step_cases`), and when the decoder refuses a window. -/

namespace Sys2Proof.Machine

/-- A window of three bytes is refused exactly when its first byte is no opcode (spec/30_encoding.md R83). -/
theorem decode_window_error {b0 b1 b2 : Byte} {e : DecodeReject} (h : decode [b0, b1, b2] = .error e) :
    lookupOpcode b0 = none ∧ e = .illegalOpcode b0 := by
  simp only [decode] at h
  cases hl : lookupOpcode b0 with
  | none =>
    rw [hl] at h
    cases h
    exact ⟨rfl, rfl⟩
  | some row =>
    rw [hl] at h
    obtain ⟨o, f, c, pen⟩ := row
    cases f <;> cases h

theorem decode_window_illegal {b0 b1 b2 : Byte} (h : lookupOpcode b0 = none) :
    decode [b0, b1, b2] = .error (.illegalOpcode b0) := by
  simp [decode, h]

/-! ## Which half of the step runs -/

theorem step_halted (s : State) (hr : s.run = .halted) : step s = hostStep s := by
  unfold step
  split <;> simp_all

/-- While Halted the step is the host's next move. -/
theorem step_hostMove (s : State) (m : HostMove) (rest : List HostMove) (hr : s.run = .halted)
    (hm : s.hostMoves = m :: rest) : step s = hostMove m { s with hostMoves := rest } := by
  rw [step_halted s hr]
  unfold hostStep
  split <;> simp_all

/-- While Halted with no move left, nothing happens. -/
theorem step_idle (s : State) (hr : s.run = .halted) (hm : s.hostMoves = []) : step s = .next s := by
  rw [step_halted s hr]
  unfold hostStep
  split <;> simp_all

/-- While Running with budget left the step is one turn of the loop. -/
theorem step_running (s : State) (b : Int) (hr : s.run = .running b) (hb : 0 < b) : step s = runStep s := by
  unfold step
  split
  · simp_all
  · rename_i c hc
    rw [hr] at hc
    cases hc
    simp [coreStep, hb]

/-- While Running with no budget left the step is the loop's test alone, which ends the run (log 15). -/
theorem step_spent (s : State) (b : Int) (hr : s.run = .running b) (hb : b ≤ 0) :
    step s = .next { s with run := .halted, haltRecord := some ⟨.budgetExhausted, b⟩ } := by
  rw [← loopTest_exhausted s b hr hb]
  unfold step
  split
  · simp_all
  · rename_i c hc
    rw [hr] at hc
    cases hc
    have : ¬ 0 < b := by omega
    simp [coreStep, this]

/-- What one step can do when it answers a next state. -/
inductive StepShape (s : State) : State → Prop where
  | idle (hr : s.run = .halted) (hm : s.hostMoves = []) : StepShape s s
  | host (m : HostMove) (rest : List HostMove) (t : State) (hr : s.run = .halted) (hm : s.hostMoves = m :: rest)
      (h : hostMove m { s with hostMoves := rest } = .next t) : StepShape s t
  | spent (b : Int) (hr : s.run = .running b) (hb : b ≤ 0) : StepShape s (loopTest s)
  | illegal (b : Int) (hr : s.run = .running b) (hb : 0 < b) (hl : lookupOpcode (s.memRead s.pc) = none) :
      StepShape s (takeIllegalOpcode s)
  | instr (b : Int) (i : Instr) (rest : List Byte) (u : State) (hr : s.run = .running b) (hb : 0 < b)
      (hd : decode (fetchWindow s) = .ok (i, rest)) (he : exec i s = .next u) : StepShape s (loopTest u)

theorem step_cases (s t : State) (h : step s = .next t) : StepShape s t := by
  unfold step at h
  cases hr : s.run with
  | halted =>
    simp only [hr, hostStep] at h
    cases hm : s.hostMoves with
    | nil =>
      simp only [hm] at h
      cases h
      exact .idle hr hm
    | cons m rest =>
      simp only [hm] at h
      exact .host m rest t hr hm (hr ▸ h)
  | running b =>
    simp only [hr, coreStep] at h
    split at h
    · rename_i hb
      unfold runStep at h
      split at h
      · rename_i i rest hd
        cases he : exec i s with
        | next u =>
          rw [he] at h
          cases h
          exact .instr b i rest u hr hb hd he
        | fault r => rw [he] at h; cases h
        | refused r => rw [he] at h; cases h
      · rename_i e hd
        cases h
        exact .illegal b hr hb (decode_window_error hd).1
    · rename_i hb
      cases h
      exact .spent b hr (by omega)

/-- The host's move, when it answers: the five state changes of R15. -/
theorem hostMove_cases (m : HostMove) (s t : State) (h : hostMove m s = .next t) :
    (m = .reset ∧ t = State.resetWith s.config s.hostMoves) ∨ (m = .memReset ∧ t = memReset s) ∨
    (∃ a v, m = .writeByte a v ∧ t = s.memWrite a v) ∨ (∃ a v, m = .writeWord a v ∧ t = s.memWriteWord a v) ∨
    (∃ b, m = .run b ∧ s.everReset = true ∧ t = beginRun b s) := by
  cases m with
  | reset => cases h; exact .inl ⟨rfl, rfl⟩
  | memReset => cases h; exact .inr (.inl ⟨rfl, rfl⟩)
  | writeByte a v => cases h; exact .inr (.inr (.inl ⟨a, v, rfl, rfl⟩))
  | writeWord a v => cases h; exact .inr (.inr (.inr (.inl ⟨a, v, rfl, rfl⟩)))
  | run b =>
    simp only [hostMove] at h
    split at h
    · rename_i he
      cases h
      exact .inr (.inr (.inr (.inr ⟨b, rfl, he, rfl⟩)))
    · cases h

end Sys2Proof.Machine
end

