-- ==== Sys2Proof/Tests/Slice0.lean ====
section
/-! SUPPORT. Tests: the checks of WellFormed, decoding by words written out from spec/30_encoding.md, single steps with
the expected values of spec/95_test_vectors.md, and a witness for the hypotheses of each statement. -/

namespace Sys2Proof.Tests

open Sys2Proof.Machine

/-! ## WellFormed: what it refuses and what it lets through -/

theorem test_wf_refuses_no_bytes : wellFormedBytes [] = false := by decide
theorem test_wf_refuses_an_illegal_opcode : wellFormedBytes [0x00] = false := by decide
theorem test_wf_refuses_a_missing_operand : wellFormedBytes [0xA9] = false := by decide
theorem test_wf_refuses_half_an_operand_word : wellFormedBytes [0x4C, 0x00] = false := by decide
theorem test_wf_refuses_a_byte_too_many : wellFormedBytes [0xEA, 0x00] = false := by decide
theorem test_wf_accepts_one_of_each_format :
    wellFormedBytes [0xEA] = true ∧ wellFormedBytes [0xA9, 0xFF] = true ∧ wellFormedBytes [0x4C, 0xFF, 0xFF] = true := by
  decide

/-! ## Decoding, by the encodings of R131 to R148, R151 to R154 and R160 to R163 -/

/-- Words written out bit by bit, one per family, the first byte lowest: LDA immediate is 10101001 (A9), then d8. -/
theorem test_decode_bit_by_bit :
    decodeTableWord 16 0b0000000110101001 = some (.ldaImm 0x01) ∧
    decodeTableWord 16 0b1000000010110110 = some (.ldxZpY 0x80) ∧
    decodeTableWord 24 0b000100001111111110111100 = some (.ldyAbsX 0x10FF) ∧
    decodeTableWord 24 0b000000110000000001101100 = some (.jmpInd 0x0300) ∧
    decodeTableWord 8 0b11001000 = some .iny := by decide

theorem test_decode_lda :
    decode [0xA9, 0x80] = .ok (.ldaImm 0x80, []) ∧ decode [0xA5, 0x42] = .ok (.ldaZp 0x42, []) ∧
    decode [0xB5, 0x80] = .ok (.ldaZpX 0x80, []) ∧ decode [0xAD, 0x34, 0x12] = .ok (.ldaAbs 0x1234, []) ∧
    decode [0xBD, 0xFF, 0x10] = .ok (.ldaAbsX 0x10FF, []) ∧ decode [0xB9, 0xF0, 0x20] = .ok (.ldaAbsY 0x20F0, []) ∧
    decode [0xA1, 0xFE] = .ok (.ldaIndX 0xFE, []) ∧ decode [0xB1, 0x10] = .ok (.ldaIndY 0x10, []) :=
  ⟨rfl, rfl, rfl, rfl, rfl, rfl, rfl, rfl⟩

theorem test_decode_ldx :
    decode [0xA2, 0x80] = .ok (.ldxImm 0x80, []) ∧ decode [0xA6, 0x42] = .ok (.ldxZp 0x42, []) ∧
    decode [0xB6, 0xFF] = .ok (.ldxZpY 0xFF, []) ∧ decode [0xAE, 0x00, 0x30] = .ok (.ldxAbs 0x3000, []) ∧
    decode [0xBE, 0xFF, 0x10] = .ok (.ldxAbsY 0x10FF, []) :=
  ⟨rfl, rfl, rfl, rfl, rfl⟩

theorem test_decode_ldy :
    decode [0xA0, 0x80] = .ok (.ldyImm 0x80, []) ∧ decode [0xA4, 0x00] = .ok (.ldyZp 0x00, []) ∧
    decode [0xB4, 0x80] = .ok (.ldyZpX 0x80, []) ∧ decode [0xAC, 0x00, 0x20] = .ok (.ldyAbs 0x2000, []) ∧
    decode [0xBC, 0xFF, 0x10] = .ok (.ldyAbsX 0x10FF, []) :=
  ⟨rfl, rfl, rfl, rfl, rfl⟩

theorem test_decode_control_transfer :
    decode [0x4C, 0x00, 0x80] = .ok (.jmpAbs 0x8000, []) ∧ decode [0x6C, 0xFF, 0x02] = .ok (.jmpInd 0x02FF, []) ∧
    decode [0x20, 0x10, 0x04] = .ok (.jsr 0x0410, []) ∧ decode [0x60] = .ok (.rts, []) :=
  ⟨rfl, rfl, rfl, rfl⟩

theorem test_decode_nop_halt_increment :
    decode [0xEA] = .ok (.nop, []) ∧ decode [0x02] = .ok (.hlt, []) ∧ decode [0xE8] = .ok (.inx, []) ∧
    decode [0xC8] = .ok (.iny, []) :=
  ⟨rfl, rfl, rfl, rfl⟩

/-- Bytes of E7 that the historical table has and this one does not. -/
theorem test_decode_refuses_historical_opcodes :
    ([0x00, 0x08, 0x18, 0x48, 0x69, 0x85, 0x8D, 0x9A, 0xAA, 0xCA, 0xD0, 0xE6] : List Byte).all
      (fun op => (lookupOpcode op).isNone) = true := by decide

theorem test_decode_refuses_by_name :
    decode [0x00, 0xEA] = .error (.illegalOpcode 0x00) ∧ decode [0xA9] = .error (.truncated 0xA9) ∧
    decode [] = .error .noBytes :=
  ⟨rfl, rfl, rfl⟩

theorem test_opcodes_are_distinct : (opcodeTable.map (fun r => r.opcode)).Pairwise (fun a b => a ≠ b) := by decide

/-! ## Single steps -/

/-- The outcome is a next state with the property. -/
def nextAnd (o : Result) (p : State → Bool) : Bool :=
  match o with
  | .next t => p t
  | .fault _ => false
  | .refused _ => false

/-- The reset state with PC at 0x0400 and a run of budget 100 in progress. -/
def start : State := { State.reset with pc := 0x0400, run := .running 100 }

/-- A state with bytes stored from an address on. -/
def bytesAt (s : State) : Word → List Byte → State
  | _, [] => s
  | a, b :: bs => bytesAt (s.memWrite a b) (a + 1) bs

/-- A state with several strings of bytes stored, each from its address on. -/
def stored (s : State) (cells : List (Word × List Byte)) : State := cells.foldl (fun s c => bytesAt s c.1 c.2) s

/-- Z and N, the other flags 0. -/
def zn (z n : Bool) : Flags := ⟨false, z, false, false, false, false, n⟩

/-- PC, A, X, Y, the flags and the cost of the step. -/
def left (t : State) : Word × Byte × Byte × Byte × Flags × RunState := (t.pc, t.a, t.x, t.y, t.flags, t.run)


/-! Vectors L1 to L40 of spec/95_test_vectors.md section 2.1 -/

theorem test_L1_lda_imm_zero :
    nextAnd (step (stored { start with a := 0x55 } [(0x0400, [0xA9, 0x00])])) (fun t =>
      left t == (0x0402, 0x00, 0x00, 0x00, zn true false, .running 98)) = true := by decide
theorem test_L37_lda_imm_at_the_top :
    nextAnd (step (stored { start with pc := 0xFFFF } [(0xFFFF, [0xA9, 0x33])])) (fun t =>
      left t == (0x0001, 0x33, 0x00, 0x00, zn false false, .running 98)) = true := by decide
theorem test_L5_lda_zp :
    nextAnd (step (stored start [(0x0400, [0xA5, 0x42]), (0x0042, [0x37])])) (fun t =>
      left t == (0x0402, 0x37, 0x00, 0x00, zn false false, .running 97)) = true := by decide
theorem test_L6_lda_zp_x :
    nextAnd (step (stored { start with x := 0x0F } [(0x0400, [0xB5, 0x80]), (0x008F, [0x80])])) (fun t =>
      left t == (0x0402, 0x80, 0x0F, 0x00, zn false true, .running 96)) = true := by decide
theorem test_L7_lda_zp_x_wraps :
    nextAnd (step (stored { start with x := 0x02 }
      [(0x0400, [0xB5, 0xFF]), (0x0001, [0x99]), (0x0101, [0x11])])) (fun t =>
      left t == (0x0402, 0x99, 0x02, 0x00, zn false true, .running 96)) = true := by decide
theorem test_L9_lda_abs_reads_code :
    nextAnd (step (stored start [(0x0400, [0xAD, 0x00, 0x04])])) (fun t =>
      left t == (0x0403, 0xAD, 0x00, 0x00, zn false true, .running 96)) = true := by decide
theorem test_L38_lda_abs_straddles_the_top :
    nextAnd (step (stored { start with pc := 0xFFFE } [(0xFFFE, [0xAD, 0x00, 0x90]), (0x9000, [0x66])])) (fun t =>
      left t == (0x0001, 0x66, 0x00, 0x00, zn false false, .running 96)) = true := by decide
theorem test_L13_lda_abs_x_wraps_and_crosses :
    nextAnd (step (stored { start with x := 0x01 } [(0x0400, [0xBD, 0xFF, 0xFF]), (0x0000, [0x80])])) (fun t =>
      left t == (0x0403, 0x80, 0x01, 0x00, zn false true, .running 95)) = true := by decide
theorem test_L15_lda_abs_y_ignores_x :
    nextAnd (step (stored { start with x := 0x01, y := 0x20 }
      [(0x0400, [0xB9, 0xF0, 0x20]), (0x20F1, [0x11]), (0x2110, [0x80])])) (fun t =>
      left t == (0x0403, 0x80, 0x01, 0x20, zn false true, .running 95)) = true := by decide
theorem test_L16_lda_abs_y_no_crossing :
    nextAnd (step (stored { start with y := 0xFF } [(0x0400, [0xB9, 0x00, 0x20]), (0x20FF, [0x10])])) (fun t =>
      left t == (0x0403, 0x10, 0x00, 0xFF, zn false false, .running 96)) = true := by decide
theorem test_L18_lda_ind_x_ignores_y :
    nextAnd (step (stored { start with x := 0x04, y := 0x08 }
      [(0x0400, [0xA1, 0x20]), (0x0024, [0x74, 0x20]), (0x0028, [0x00, 0x30]), (0x2074, [0x33]), (0x3000, [0x44])])) (fun t =>
      left t == (0x0402, 0x33, 0x04, 0x08, zn false false, .running 94)) = true := by decide
theorem test_L19_lda_ind_x_pointer_at_page_end :
    nextAnd (step (stored start
      [(0x0400, [0xA1, 0xFF]), (0x0000, [0x40]), (0x00FF, [0x00, 0x30]), (0x3000, [0x5A]), (0x4000, [0xA5])])) (fun t =>
      left t == (0x0402, 0x5A, 0x00, 0x00, zn false false, .running 94)) = true := by decide
theorem test_L20_lda_ind_y_ignores_x :
    nextAnd (step (stored { start with x := 0x05, y := 0x01 }
      [(0x0400, [0xB1, 0x10]), (0x0010, [0xFF, 0x10]), (0x1100, [0x7F]), (0x1104, [0x80])])) (fun t =>
      left t == (0x0402, 0x7F, 0x05, 0x01, zn false false, .running 94)) = true := by decide
theorem test_L22_lda_ind_y_no_crossing :
    nextAnd (step (stored { start with y := 0x10 }
      [(0x0400, [0xB1, 0x86]), (0x0086, [0x28, 0x40]), (0x4038, [0xC3])])) (fun t =>
      left t == (0x0402, 0xC3, 0x00, 0x10, zn false true, .running 95)) = true := by decide
theorem test_L24_ldx_imm :
    nextAnd (step (stored { start with x := 0x33 } [(0x0400, [0xA2, 0x00])])) (fun t =>
      left t == (0x0402, 0x00, 0x00, 0x00, zn true false, .running 98)) = true := by decide
theorem test_L25_ldx_zp :
    nextAnd (step (stored start [(0x0400, [0xA6, 0x42]), (0x0042, [0x80])])) (fun t =>
      left t == (0x0402, 0x00, 0x80, 0x00, zn false true, .running 97)) = true := by decide
theorem test_L26_ldx_zp_y_wraps :
    nextAnd (step (stored { start with x := 0x07, y := 0x02 }
      [(0x0400, [0xB6, 0xFF]), (0x0001, [0x7F]), (0x0006, [0x22]), (0x0101, [0x11])])) (fun t =>
      left t == (0x0402, 0x00, 0x7F, 0x02, zn false false, .running 96)) = true := by decide
theorem test_L27_ldx_abs :
    nextAnd (step (stored start [(0x0400, [0xAE, 0x00, 0x30]), (0x3000, [0xFF])])) (fun t =>
      left t == (0x0403, 0x00, 0xFF, 0x00, zn false true, .running 96)) = true := by decide
theorem test_L28_ldx_abs_y_crosses :
    nextAnd (step (stored { start with y := 0x01 } [(0x0400, [0xBE, 0xFF, 0x10]), (0x1100, [0x01])])) (fun t =>
      left t == (0x0403, 0x00, 0x01, 0x01, zn false false, .running 95)) = true := by decide
theorem test_L30_ldy_imm :
    nextAnd (step (stored start [(0x0400, [0xA0, 0x80])])) (fun t =>
      left t == (0x0402, 0x00, 0x00, 0x80, zn false true, .running 98)) = true := by decide
theorem test_L31_ldy_zp :
    nextAnd (step (stored start [(0x0400, [0xA4, 0x00]), (0x0000, [0x7F])])) (fun t =>
      left t == (0x0402, 0x00, 0x00, 0x7F, zn false false, .running 97)) = true := by decide
theorem test_L32_ldy_zp_x_index_is_x :
    nextAnd (step (stored { start with x := 0x0F, y := 0x70 } [(0x0400, [0xB4, 0x80]), (0x00F0, [0x55])])) (fun t =>
      left t == (0x0402, 0x00, 0x0F, 0x00, zn true false, .running 96)) = true := by decide
theorem test_L33_ldy_zp_x_wraps :
    nextAnd (step (stored { start with x := 0x02 }
      [(0x0400, [0xB4, 0xFF]), (0x0001, [0x80]), (0x0101, [0x11])])) (fun t =>
      left t == (0x0402, 0x00, 0x02, 0x80, zn false true, .running 96)) = true := by decide
theorem test_L34_ldy_abs :
    nextAnd (step (stored { start with y := 0x44 } [(0x0400, [0xAC, 0x00, 0x20])])) (fun t =>
      left t == (0x0403, 0x00, 0x00, 0x00, zn true false, .running 96)) = true := by decide
theorem test_L35_ldy_abs_x_crosses :
    nextAnd (step (stored { start with x := 0x01 } [(0x0400, [0xBC, 0xFF, 0x10]), (0x1100, [0x80])])) (fun t =>
      left t == (0x0403, 0x00, 0x01, 0x80, zn false true, .running 95)) = true := by decide
/-- Flags that no run sets keep their values. -/
theorem test_L39_other_flags_stay :
    nextAnd (step (stored { start with x := 0x10, flags := ⟨true, false, true, true, true, true, false⟩ }
      [(0x0400, [0xBD, 0x00, 0x02]), (0x0210, [0x80])])) (fun t =>
      left t == (0x0403, 0x80, 0x10, 0x00, ⟨true, false, true, true, true, true, true⟩, .running 96)) = true := by decide

/-! Vectors T1 to T14 of section 2.2 -/

theorem test_T1_jmp :
    nextAnd (step (stored { start with a := 0x12, flags := zn true true } [(0x0400, [0x4C, 0x00, 0x80])])) (fun t =>
      left t == (0x8000, 0x12, 0x00, 0x00, zn true true, .running 97)) = true := by decide
theorem test_T3_jmp_straddles_the_top :
    nextAnd (step (stored { start with pc := 0xFFFE } [(0xFFFE, [0x4C, 0x34, 0x12])])) (fun t =>
      left t == (0x1234, 0x00, 0x00, 0x00, zn false false, .running 97)) = true := by decide
theorem test_T5_jmp_ind_next_page :
    nextAnd (step (stored start [(0x0400, [0x6C, 0xFF, 0x02]), (0x0200, [0x56]), (0x02FF, [0x34, 0x12])])) (fun t =>
      left t == (0x1234, 0x00, 0x00, 0x00, zn false false, .running 95)) = true := by decide
theorem test_T6_jmp_ind_at_the_top :
    nextAnd (step (stored start [(0x0400, [0x6C, 0xFF, 0xFF]), (0x0000, [0x56]), (0xFFFF, [0x78])])) (fun t =>
      left t == (0x5678, 0x00, 0x00, 0x00, zn false false, .running 95)) = true := by decide
/-- The stack pointer, PC, two cells and the cost of a call or a return. -/
def linkage (lo hi : Word) (t : State) : Word × Byte × Byte × Byte × RunState :=
  (t.pc, t.sp, t.memRead lo, t.memRead hi, t.run)
theorem test_T9_jsr_pushes_the_wrapped_return_address :
    nextAnd (step (bytesAt (bytesAt { start with pc := 0xFFFD } 0xFFFD [0x20, 0x00, 0x80]) 0x0100 [0x77, 0x77]))
      (fun t => linkage 0x0100 0x0101 t == (0x8000, 0x02, 0x00, 0x00, .running 94)) = true := by decide
theorem test_T13_jsr_at_the_last_stack_byte :
    nextAnd (step (bytesAt { start with sp := 0xFF } 0x0400 [0x20, 0x00, 0x80]))
      (fun t => linkage 0x01FF 0x0200 t == (0x8000, 0x01, 0x03, 0x04, .running 94)) = true := by decide
theorem test_T12_rts :
    nextAnd (step (bytesAt (bytesAt { start with pc := 0x8000, sp := 0x02 } 0x8000 [0x60]) 0x0100 [0x03, 0x04]))
      (fun t => linkage 0x0100 0x0101 t == (0x0403, 0x00, 0x03, 0x04, .running 94)) = true := by decide
theorem test_T14_rts_pops_the_last_stack_byte :
    nextAnd (step (bytesAt (bytesAt { start with pc := 0x8000, sp := 0x01 } 0x8000 [0x60]) 0x01FF [0x03, 0x04]))
      (fun t => linkage 0x01FF 0x0200 t == (0x0403, 0xFF, 0x03, 0x04, .running 94)) = true := by decide

/-! Vectors I1 to I9 of section 2.3 -/

theorem test_I1_nop :
    nextAnd (step (stored { start with a := 0x01, x := 0x02, y := 0x03, flags := zn true true }
      [(0x0400, [0xEA])])) (fun t =>
      left t == (0x0401, 0x01, 0x02, 0x03, zn true true, .running 98)) = true := by decide
theorem test_I3_inx_sets_n :
    nextAnd (step (stored { start with x := 0x7F } [(0x0400, [0xE8])])) (fun t =>
      left t == (0x0401, 0x00, 0x80, 0x00, zn false true, .running 98)) = true := by decide
theorem test_I4_inx_wraps_and_ignores_y :
    nextAnd (step (stored { start with x := 0xFF, y := 0x80 } [(0x0400, [0xE8])])) (fun t =>
      left t == (0x0401, 0x00, 0x00, 0x80, zn true false, .running 98)) = true := by decide
theorem test_I7_iny_wraps_and_ignores_x :
    nextAnd (step (stored { start with x := 0x80, y := 0xFF } [(0x0400, [0xC8])])) (fun t =>
      left t == (0x0401, 0x00, 0x80, 0x00, zn true false, .running 98)) = true := by decide
theorem test_I8_iny_sets_n :
    nextAnd (step (stored { start with y := 0x7F } [(0x0400, [0xC8])])) (fun t =>
      left t == (0x0401, 0x00, 0x00, 0x80, zn false true, .running 98)) = true := by decide
theorem test_I9_hlt :
    nextAnd (step (bytesAt { start with a := 0x01, flags := zn true false } 0x0400 [0x02])) (fun t =>
      left t == (0x0401, 0x01, 0x00, 0x00, zn true false, .halted) &&
      t.haltRecord == some ⟨.haltOpcode, 0⟩) = true := by decide

/-! The run loop and the host: vectors of sections 2.4, 2.6 and 2.7, one step each -/

/-- The reset state with one move of the host before it. -/
def hostBefore (m : HostMove) : State := { State.reset with hostMoves := [m] }

/-- B2: `run(-5)`. -/
theorem test_B2_negative_budget :
    step (hostBefore (.run (-5))) = .next { State.reset with haltRecord := some ⟨.budgetExhausted, -5⟩ } := rfl
/-- B3: nothing loaded, FILL = 0x00. -/
theorem test_B3_illegal_fill :
    step { State.reset with run := .running 7 } =
      .next { State.reset with pc := 0xFFFD, haltRecord := some ⟨.illegalOpcode 0x00 0xFFFC, 6⟩ } := rfl
/-- B4, its last step: FILL = 0xEA, the fourth NOP, at 0xFFFF with budget 1. -/
theorem test_B4_nop_fill_overspends :
    step { State.resetWith ⟨0xFFFC, 0xEA⟩ [] with pc := 0xFFFF, run := .running 1 } =
      .next { State.resetWith ⟨0xFFFC, 0xEA⟩ [] with pc := 0x0000, haltRecord := some ⟨.budgetExhausted, -1⟩ } := rfl
/-- E2, its last step: the illegal byte at 0xFFFE takes the last unit. -/
theorem test_E2_illegal_wins_over_exhaustion :
    nextAnd (step { State.reset with pc := 0xFFFE, a := 0x05, run := .running 1 }) (fun t =>
      t.haltRecord == some ⟨.illegalOpcode 0x00 0xFFFE, 0⟩ && t.pc == 0xFFFF && t.a == 0x05) = true := by decide
/-- A word written at 0xFFFF has its high byte at 0x0000 (R62). -/
theorem test_word_write_wraps :
    nextAnd (step (hostBefore (.writeWord 0xFFFF 0x1234))) (fun t =>
      t.mem == [(0x0000, 0x12), (0xFFFF, 0x34)]) = true := by decide
/-- Writing `FILL` leaves no entry. -/
theorem test_writing_fill_removes_the_cell :
    nextAnd (step (bytesAt (hostBefore (.writeByte 0x1234 0x00)) 0x1234 [0x56])) (fun t => t.mem == []) = true := by decide
/-- Reset takes the configured vector itself (R200, C3). -/
theorem test_reset_with_another_vector :
    nextAnd (step { start with config := ⟨0x0200, 0xEA⟩, hostMoves := [.reset], run := .halted, sp := 0x04 }) (fun t =>
      t == State.resetWith ⟨0x0200, 0xEA⟩ []) = true := by decide
theorem test_run_before_reset_is_refused :
    step { hostBefore (.run 1) with everReset := false } = .refused .runBeforeReset := rfl
theorem test_idle_core_stays : step State.reset = .next State.reset := rfl

/-! ## `withFetchWord`: the next step runs that instruction -/

theorem test_fetch_word_three_bytes :
    decode (fetchWindow (State.reset.withFetchWord 24 0x1000BD)) = .ok (.ldaAbsX 0x1000, []) := rfl
theorem test_fetch_word_runs_from_reset :
    nextAnd (step (State.reset.withFetchWord 8 0x02)) (fun t =>
      t.pc == 0xFFFD && t.haltRecord == some ⟨.haltOpcode, 0⟩) = true := by decide
theorem test_fetch_word_runs_every_opcode :
    listedOpcodes.all (fun op => nextAnd (step (State.reset.withFetchWord 8 op.toNat)) (fun t =>
      t.haltRecord.all (fun r => r.cause == .budgetExhausted || r.cause == .haltOpcode))) = true := by decide
/-- Two shared operations whose value no step above pins down: the numbers of R179, and the host's read. -/
theorem test_host_view :
    haltCode .budgetExhausted = 0 ∧ haltCode .haltOpcode = 1 ∧ haltCode (.illegalOpcode 0x00 0xFFFC) = 2 ∧
    hostReadByte start 0x0000 = none ∧ hostReadByte State.reset 0x0000 = some 0x00 ∧
    hostInspect State.reset = some ⟨0xFFFC, 0x00, 0x00, 0x00, 0x00, zn false false, none⟩ := by decide

/-! ## Witnesses: for each statement with hypotheses, an input that meets them all -/

/-- A program in memory, the stack pointer at its last even value, an index that crosses, and one unit of budget. -/
def busy : State :=
  bytesAt { State.reset with pc := 0xFFFE, sp := 0xFE, x := 0xFF, y := 0x01, run := .running 1 } 0xFFFE [0xBD, 0xFF, 0x10]

theorem witness_EncodeAfterDecodeGivesTheBytes : decode [0xBD, 0xFF, 0x10, 0x00] = .ok (.ldaAbsX 0x10FF, [0x00]) := rfl
theorem witness_BytesOutsideTheListAreIllegal :
    (0x02 : Byte) ∈ listedOpcodes ∧ (0xEA : Byte) ∈ listedOpcodes ∧ (0x00 : Byte) ∉ listedOpcodes ∧
    (0xFF : Byte) ∉ listedOpcodes := by decide
theorem witness_HostByteWriteChangesOneCell : 
    (hostBefore (.writeByte 0xFFFF 0xEA)).run = .halted ∧
    (hostBefore (.writeByte 0xFFFF 0xEA)).hostMoves = .writeByte 0xFFFF 0xEA :: [] := by decide
theorem witness_HostWordWriteIsLittleEndianAndWraps : 
    (hostBefore (.writeWord 0xFFFF 0x1234)).run = .halted ∧
    (hostBefore (.writeWord 0xFFFF 0x1234)).hostMoves = .writeWord 0xFFFF 0x1234 :: [] ∧
    (0x0080 : Word) ≠ 0xFFFF ∧ (0x0080 : Word) ≠ 0xFFFF + 1 := by decide
theorem witness_CanonicalMemoriesThatReadAlikeAreEqual :
    Memory.wf 0x00 [(0, 0x12), (65535, 0x34)] = true ∧
    ∀ a : Word, Memory.read 0x00 [(0, 0x12), (65535, 0x34)] a.toNat =
      Memory.read 0x00 (Memory.write 0x00 [(65535, 0x34)] 0 0x12) a.toNat := ⟨by decide, fun _ => rfl⟩
theorem witness_FetchByteReadsAdvancesAndDebits : busy.run = .running 1 := by decide
theorem witness_ZeroPageAddressesWrapInThePage : busy.run = .running 1 := by decide
theorem witness_ImmediateLoadsLoadTheOperand : busy.run = .running 1 := by decide
theorem witness_ZeroPageLoadsLoadTheCell : busy.run = .running 1 := by decide
theorem witness_IndexedZeroPageLoadsLoadTheCell : busy.run = .running 1 := by decide
theorem witness_AbsoluteLoadsLoadTheCell : busy.run = .running 1 := by decide
theorem witness_IndexedAbsoluteLoadsLoadTheCell : busy.run = .running 1 := by decide
theorem witness_IndirectXLoadFollowsThePointer : busy.run = .running 1 := by decide
theorem witness_IndirectYLoadOffsetsThePointerByY : busy.run = .running 1 := by decide
theorem witness_JumpAbsoluteSetsPC : busy.run = .running 1 := by decide
theorem witness_JumpIndirectSetsPCFromMemory : busy.run = .running 1 := by decide
theorem witness_CallPushesTheNextAddress : busy.run = .running 1 := by decide
theorem witness_ReturnPopsTheAddress : busy.run = .running 1 := by decide
theorem witness_NopOnlyAdvances : busy.run = .running 1 := by decide
theorem witness_HaltEndsTheRun : busy.run = .running 1 := by decide
theorem witness_IncrementsAddOneAndSetFlags : busy.run = .running 1 := by decide
theorem witness_LoadsWriteOneRegisterAndItsFlags :
    loadValue busy (.ldaImm 0xFF) = some 0xFF ∧ loadValue busy (.ldxZpY 0xFF) = some (busy.memRead 0x0000) ∧
    loadValue busy (.ldyAbsX 0xFFFF) = some (busy.memRead 0x00FE) := ⟨rfl, rfl, rfl⟩
theorem witness_FrameOfLoadsAndIncrements :
    (destination (.ldaIndY 0xFF) = some .a ∧ ∃ t, exec (.ldaIndY 0xFF) busy = .next t) ∧
    (destination .inx = some .x ∧ ∃ t, exec .inx busy = .next t) := ⟨⟨rfl, _, rfl⟩, rfl, _, rfl⟩
theorem witness_FrameOfTransfersNopAndHalt :
    (destination .rts = none ∧ (∀ a, Instr.rts ≠ .jsr a) ∧ ∃ t, exec .rts busy = .next t) ∧
    (destination (.jmpInd 0xFFFF) = none ∧ (∀ a, Instr.jmpInd 0xFFFF ≠ .jsr a) ∧
      ∃ t, exec (.jmpInd 0xFFFF) busy = .next t) ∧
    (destination .hlt = none ∧ (∀ a, Instr.hlt ≠ .jsr a) ∧ ∃ t, exec .hlt busy = .next t) :=
  ⟨⟨rfl, nofun, _, rfl⟩, ⟨rfl, nofun, _, rfl⟩, rfl, nofun, _, rfl⟩
theorem witness_FrameOfCall :
    (∃ t, exec (.jsr 0xFFFF) busy = .next t) ∧ (0x0000 : Word) ≠ stackAddr busy.sp ∧
    (0x0000 : Word) ≠ stackAddr busy.sp + 1 := ⟨⟨_, rfl⟩, by decide, by decide⟩
theorem witness_ZeroAndNegativeDescribeTheWrittenRegister :
    (destination (.ldaImm 0x80) = some .a ∧ ∃ t, exec (.ldaImm 0x80) busy = .next t) ∧
    (destination .nop = none ∧ ∃ t, exec .nop busy = .next t) := ⟨⟨rfl, _, rfl⟩, rfl, _, rfl⟩
theorem witness_OtherFlagsAreNeitherWrittenNorRead :
    (∃ t, exec .iny busy = .next t) ∧
    (let f : Flags := ⟨true, busy.flags.z, true, true, true, true, busy.flags.n⟩
     f.z = busy.flags.z ∧ f.n = busy.flags.n) ∧
    busy.flags.othersClear ∧ ∃ t, step busy = .next t :=
  ⟨⟨_, rfl⟩, ⟨rfl, rfl⟩, ⟨rfl, rfl, rfl, rfl, rfl⟩, _, rfl⟩
theorem witness_UnreadRegistersDoNotInfluence :
    (readsReg (.ldaAbsY 0x10FF) .x = false ∧ destination (.ldaAbsY 0x10FF) ≠ some .x ∧
      ∃ t, exec (.ldaAbsY 0x10FF) busy = .next t) ∧
    (readsReg (.ldxZpY 0xFF) .x = false ∧ destination (.ldxZpY 0xFF) = some .x ∧
      ∃ t, exec (.ldxZpY 0xFF) busy = .next t) ∧
    (usesSP .nop = false ∧ ∃ t, exec .nop busy = .next t) :=
  ⟨⟨rfl, nofun, _, rfl⟩, ⟨rfl, rfl, _, rfl⟩, rfl, _, rfl⟩
theorem witness_ProgramCounterAfterEachInstruction :
    ({ busy with pc := 0xFFFF } : State).pc = 0xFFFF ∧
    (∃ t, exec (.jmpAbs 0x0000) busy = .next t) ∧ (∃ t, exec (.jmpInd 0xFFFF) busy = .next t) ∧
    (∃ t, exec (.jsr 0xFFFE) busy = .next t) ∧ (∃ t, exec .rts busy = .next t) ∧
    (∃ t, exec (.ldaAbs 0xFFFF) busy = .next t) ∧ busy.run = .running 1 :=
  ⟨rfl, ⟨_, rfl⟩, ⟨_, rfl⟩, ⟨_, rfl⟩, ⟨_, rfl⟩, ⟨_, rfl⟩, rfl⟩
theorem witness_CostsAreTheTableCosts :
    busy.run = .running 1 ∧ Instr.ldaAbsX 0x10FF ≠ .hlt ∧ ∃ t, exec (.ldaAbsX 0x10FF) busy = .next t :=
  ⟨rfl, nofun, _, rfl⟩
theorem witness_ReturnAfterCallResumesAfterIt :
    (∃ t, exec (.jsr 0x0410) busy = .next t) ∧ ∃ t, exec (.jsr 0x0410) { busy with sp := 0xFF } = .next t :=
  ⟨⟨_, rfl⟩, _, rfl⟩
theorem witness_StepRunsTheDecodedInstruction :
    (busy.run = .running 1 ∧ (0 : Int) < 1 ∧ (Instr.ldaAbsX 0x10FF).wf = true ∧
      decode [busy.memRead busy.pc, busy.memRead (busy.pc + 1), busy.memRead (busy.pc + 2)] = .ok (.ldaAbsX 0x10FF, [])) ∧
    ({ busy with run := .running 0 } : State).run = .running 0 ∧ State.reset.run = .halted :=
  ⟨⟨rfl, by decide, rfl, rfl⟩, rfl, rfl⟩
theorem witness_StepAgreesWithByteByByteFetch : busy.run = .running 1 ∧ (0 : Int) < 1 := ⟨rfl, by decide⟩
theorem witness_IllegalOpcodeIsTheOnlyException :
    ({ State.reset with run := .running 1 } : State).run = .running 1 ∧ (0 : Int) < 1 ∧
    lookupOpcode (State.reset.memRead State.reset.pc) = none ∧
    Instr.inx ≠ .hlt ∧
    ∃ t, exec .inx { busy with haltRecord := some ⟨.illegalOpcode 0x00 0xFFFC, 6⟩ } = .next t ∧
      t.haltRecord = some ⟨.illegalOpcode 0x00 0xFFFC, 6⟩ := ⟨rfl, by decide, rfl, nofun, _, rfl, rfl⟩
theorem witness_IllegalOpcodeChangesNothingElse :
    ({ State.reset with run := .running 1 } : State).run = .running 1 ∧ (0 : Int) < 1 ∧
    State.reset.memRead State.reset.pc ∉ listedOpcodes := ⟨rfl, by decide, by decide⟩
theorem witness_RunWithNoBudgetDoesNothing :
    (hostBefore (.run 0)).run = .halted ∧ (hostBefore (.run 0)).everReset = true ∧
    (hostBefore (.run 0)).hostMoves = .run 0 :: [] ∧ (0 : Int) ≤ 0 := by decide
theorem witness_RunResumesWhereTheLastHaltLeft :
    (hostBefore (.run 1)).run = .halted ∧ (hostBefore (.run 1)).everReset = true ∧
    (hostBefore (.run 1)).hostMoves = .run 1 :: [] ∧ (0 : Int) < 1 := by decide
theorem witness_RunBeforeResetIsRefused :
    let s : State := { hostBefore (.run 1) with everReset := false }
    s.run = .halted ∧ s.everReset = false ∧ s.hostMoves = .run 1 :: [] := by decide
theorem witness_ResetGivesTheResetState :
    let s : State := { hostBefore .reset with a := 0x55, haltRecord := some ⟨.illegalOpcode 0x00 0xFFFC, 6⟩ }
    s.run = .halted ∧ s.hostMoves = .reset :: [] := by decide
theorem witness_MemoryResetChangesMemoryOnly :
    (hostBefore .memReset).run = .halted ∧ (hostBefore .memReset).hostMoves = .memReset :: [] := by decide
theorem witness_HostObservesBetweenRunsOnly : busy.run = .running 1 ∧ State.reset.run = .halted := ⟨rfl, rfl⟩
theorem witness_ConfigurationIsConstantAndTheHostWaits : busy.run = .running 1 ∧ ∃ t, step busy = .next t := ⟨rfl, _, rfl⟩
theorem witness_StepsAnswerUnlessRunPrecedesReset :
    (State.reset.run = .halted ∧ State.reset.hostMoves = []) ∧
    ({ busy with run := .running 0 } : State).run = .running 0 ∧ (0 : Int) ≤ 0 := ⟨⟨rfl, rfl⟩, rfl, by decide⟩
theorem witness_StepsSpendBudgetAndOverspendAtMostFive :
    (busy.run = .running 1 ∧ (0 : Int) < 1 ∧ ∃ t, step busy = .next t) ∧
    ∃ t, step { busy with run := .running 6 } = .next t := ⟨⟨rfl, by decide, _, rfl⟩, _, rfl⟩
theorem witness_TheBudgetDoesNotSteerExecution :
    let s : State := { busy with run := .running 7, haltRecord := some ⟨.budgetExhausted, 0⟩ }
    busy.run = .running 1 ∧ s.run = .running 7 ∧ (0 : Int) < 1 ∧ (0 : Int) < 7 ∧
    busy.architectural = s.architectural ∧ (∃ t, step busy = .next t) ∧ ∃ t, step s = .next t :=
  ⟨rfl, rfl, by decide, by decide, rfl, ⟨_, rfl⟩, _, rfl⟩
theorem witness_EveryStepKeepsInv : Inv busy ∧ ∃ t, step busy = .next t :=
  ⟨⟨rfl, by decide, by decide, ⟨rfl, rfl, rfl, rfl, rfl⟩, fun b h => by cases h; decide⟩, _, rfl⟩
theorem witness_EveryRunEndsWithAJustifiedRecord : busy.run = .running 1 ∧ (0 : Int) < 1 := ⟨rfl, by decide⟩

end Sys2Proof.Tests
end

section
/-! SUPPORT. Proofs of the statements about scope (spec/00_scope.md): R13, the one exception; R15, what the host observes. -/

namespace Sys2Proof.Machine

/-! ## The one exception -/

/-- No meaning ends in a fault or a refusal (R13, R174). -/
theorem exec_answers (i : Instr) (s : State) : ∃ t, exec i s = .next t := by
  cases i <;> exact ⟨_, rfl⟩

/-- An IllegalOpcode record after an instruction stood there before it: HLT writes another cause, if a run is in progress,
and no other instruction writes the record. -/
theorem exec_adds_no_illegalOpcode_record {i : Instr} {s t : State} {op : Byte} {addr : Word} {left : Int}
    (h : exec i s = .next t) (hrec : t.haltRecord = some ⟨.illegalOpcode op addr, left⟩) :
    s.haltRecord = t.haltRecord := by
  by_cases hi : i = .hlt
  · subst hi
    cases hr : s.run with
    | halted =>
      rw [execHlt_halted s hr] at h
      cases h
      rfl
    | running b =>
      rw [execHlt_running s b hr] at h
      cases h
      cases hrec
  · exact (exec_keeps_running hi h).1.symm

/-- While Running with budget left, a byte at PC without a row makes the step take IllegalOpcode (R92, R171). -/
theorem step_illegalOpcode (s : State) (b : Int) (hr : s.run = .running b) (hb : 0 < b)
    (hl : lookupOpcode (s.memRead s.pc) = none) : step s = .next (takeIllegalOpcode s) := by
  rw [step_running s b hr hb, runStep, fetchWindow_eq, decode_window_illegal hl]

/-- Settles O38: the step takes IllegalOpcode on a byte without a row; instructions always answer, and add no such record. -/
theorem illegalOpcodeIsTheOnlyException : Obligations.IllegalOpcodeIsTheOnlyException := by
  refine ⟨fun s b hr hb hl => ?_, fun i s => ?_⟩
  · refine ⟨_, b - 1, step_illegalOpcode s b hr hb hl, ?_⟩
    simp [takeIllegalOpcode_running s b hr]
  · obtain ⟨t, h⟩ := exec_answers i s
    exact ⟨t, h, fun hi => exec_keeps_running hi h, fun _ _ _ hrec => exec_adds_no_illegalOpcode_record h hrec⟩

/-! ## What the host observes -/

theorem hostInspect_running {s : State} {b : Int} (hr : s.run = .running b) : hostInspect s = none := by
  simp [hostInspect, hr]

theorem hostReadByte_running {s : State} {b : Int} (hr : s.run = .running b) (a : Word) : hostReadByte s a = none := by
  simp [hostReadByte, hr]

theorem hostReadWord_running {s : State} {b : Int} (hr : s.run = .running b) (a : Word) : hostReadWord s a = none := by
  simp [hostReadWord, hr]

theorem hostInspect_halted {s : State} (hr : s.run = .halted) :
    hostInspect s = some ⟨s.pc, s.sp, s.a, s.x, s.y, s.flags, s.haltRecord⟩ := by
  simp [hostInspect, hr]

theorem hostReadByte_halted {s : State} (hr : s.run = .halted) (a : Word) : hostReadByte s a = some (s.memRead a) := by
  simp [hostReadByte, hr]

theorem hostReadWord_halted {s : State} (hr : s.run = .halted) (a : Word) :
    hostReadWord s a = some (s.memReadWord a) := by
  simp [hostReadWord, hr]

/-- Settles O45: each of the host's three reads, by the run state. -/
theorem hostObservesBetweenRunsOnly : Obligations.HostObservesBetweenRunsOnly :=
  ⟨fun _ _ a hr => ⟨hostInspect_running hr, hostReadByte_running hr a, hostReadWord_running hr a⟩,
    fun _ a hr => ⟨hostInspect_halted hr, hostReadByte_halted hr a, hostReadWord_halted hr a⟩⟩

end Sys2Proof.Machine
end

section
/-! SUPPORT. The next state of every instruction, by what it writes: loads and increments write one register with Z and N
(`exec_writes`), the others have an equation each (`exec_jmpAbs` to `exec_hlt`). And what halt entry and the loop test
leave alone. -/

namespace Sys2Proof.Machine

/-! ## Halt entry and the loop test change the run state and the halt record only (R177) -/

@[simp] theorem haltEntry_flags (cause : HaltCause) (s : State) : (haltEntry cause s).flags = s.flags := by
  obtain ⟨r, h⟩ := haltEntry_eq cause s
  rw [h]

@[simp] theorem haltEntry_config (cause : HaltCause) (s : State) : (haltEntry cause s).config = s.config := by
  obtain ⟨r, h⟩ := haltEntry_eq cause s
  rw [h]

@[simp] theorem haltEntry_everReset (cause : HaltCause) (s : State) : (haltEntry cause s).everReset = s.everReset := by
  obtain ⟨r, h⟩ := haltEntry_eq cause s
  rw [h]

@[simp] theorem haltEntry_hostMoves (cause : HaltCause) (s : State) : (haltEntry cause s).hostMoves = s.hostMoves := by
  obtain ⟨r, h⟩ := haltEntry_eq cause s
  rw [h]

/-- The loop test changes nothing but the run state and the halt record. -/
theorem loopTest_eq (s : State) : ∃ q r, loopTest s = { s with run := q, haltRecord := r } := by
  obtain ⟨h, -⟩ | ⟨b, -, -, h⟩ := loopTest_cases s
  · exact ⟨s.run, s.haltRecord, h⟩
  · exact ⟨_, _, h⟩

@[simp] theorem loopTest_flags (s : State) : (loopTest s).flags = s.flags := by
  obtain ⟨q, r, h⟩ := loopTest_eq s
  rw [h]

@[simp] theorem loopTest_config (s : State) : (loopTest s).config = s.config := by
  obtain ⟨q, r, h⟩ := loopTest_eq s
  rw [h]

@[simp] theorem loopTest_everReset (s : State) : (loopTest s).everReset = s.everReset := by
  obtain ⟨q, r, h⟩ := loopTest_eq s
  rw [h]

@[simp] theorem loopTest_hostMoves (s : State) : (loopTest s).hostMoves = s.hostMoves := by
  obtain ⟨q, r, h⟩ := loopTest_eq s
  rw [h]

@[simp] theorem beginRun_flags (b : Int) (s : State) : (beginRun b s).flags = s.flags := loopTest_flags _
@[simp] theorem beginRun_config (b : Int) (s : State) : (beginRun b s).config = s.config := loopTest_config _

@[simp] theorem takeIllegalOpcode_flags (s : State) : (takeIllegalOpcode s).flags = s.flags := haltEntry_flags _ _
@[simp] theorem takeIllegalOpcode_config (s : State) : (takeIllegalOpcode s).config = s.config := haltEntry_config _ _
@[simp] theorem takeIllegalOpcode_everReset (s : State) : (takeIllegalOpcode s).everReset = s.everReset :=
  haltEntry_everReset _ _
@[simp] theorem takeIllegalOpcode_hostMoves (s : State) : (takeIllegalOpcode s).hostMoves = s.hostMoves :=
  haltEntry_hostMoves _ _

/-! ## Loads and increments: one register, Z and N, PC and the budget -/

/-- The state after `n` byte fetches, `k` further units, and `v` in register `r` with Z and N from it. -/
def State.afterWrite (s : State) (r : Reg8) (v : Byte) (n : Nat) (k : Int) : State :=
  (((fetched n s).tick k).withReg r v).setZN v

/-- The byte an instruction with a destination puts there (R130, R162, R163); 0 for the others, which write none. -/
def writtenValue (s : State) : Instr → Byte
  | .inx => s.x + 1
  | .iny => s.y + 1
  | i => (loadValue s i).getD 0

/-- The unit of R123 as `indexed` charges it. -/
def crossUnit (base : Word) (index : Byte) : Int := if crossed base (base + zext16 index) then 1 else 0

/-- The units an instruction with a destination debits beyond its fetches: its addressing mode (R111 to R119) and the
`ReadByte` of its operand, or the `Tick(1)` of an increment; 0 for the others, whose equations stand below. -/
def unitsAfterFetch (s : State) : Instr → Int
  | .ldaZp _ | .ldxZp _ | .ldyZp _ | .ldaAbs _ | .ldxAbs _ | .ldyAbs _ | .inx | .iny => 1
  | .ldaZpX _ | .ldyZpX _ | .ldxZpY _ => 2
  | .ldaAbsX a16 | .ldyAbsX a16 => crossUnit a16 s.x + 1
  | .ldaAbsY a16 | .ldxAbsY a16 => crossUnit a16 s.y + 1
  | .ldaIndX _ => 4
  | .ldaIndY d8 => 2 + crossUnit (s.memReadWord (zext16 d8)) s.y + 1
  | .ldaImm _ | .ldxImm _ | .ldyImm _ | .jmpAbs _ | .jmpInd _ | .jsr _ | .rts | .nop | .hlt => 0

/-- The three endings of a load, by the register. -/
def loadReg : Reg8 → Byte × State → Result
  | .a => loadA
  | .x => loadX
  | .y => loadY

theorem loadReg_eq (r : Reg8) (o : Byte × State) : loadReg r o = .next ((o.2.withReg r o.1).setZN o.1) := by
  cases r <;> rfl

/-- A load whose mode `m` answers the address `ea` for `k` units: the byte there is written, one unit more for its read. -/
theorem loadReg_operandByte (r : Reg8) (m : State → Word × State) (n : Nat) (s : State) {ea : Word} {k : Int}
    (hm : m (fetched n s) = (ea, (fetched n s).tick k)) :
    loadReg r (operandByte (m (fetched n s))) = .next (s.afterWrite r (s.memRead ea) n (k + 1)) := by
  simp [loadReg_eq, hm, operandByte, readByte, State.afterWrite, tick_tick]

theorem zeroPage_eq (d : Byte) (s : State) : zeroPage d s = (zext16 d, s.tick 0) := by rw [tick_zero]; rfl
theorem absolute_eq (a : Word) (s : State) : absolute a s = (a, s.tick 0) := by rw [tick_zero]; rfl

/-! The indexed modes after the fetches, in terms of the state before them. -/

theorem absoluteX_fetched (a : Word) (n : Nat) (s : State) :
    absoluteX a (fetched n s) = (a + zext16 s.x, (fetched n s).tick (crossUnit a s.x)) := by
  rw [absoluteX, indexed_eq, fetched_x, crossUnit]

theorem absoluteY_fetched (a : Word) (n : Nat) (s : State) :
    absoluteY a (fetched n s) = (a + zext16 s.y, (fetched n s).tick (crossUnit a s.y)) := by
  rw [absoluteY, indexed_eq, fetched_y, crossUnit]

theorem indirectX_fetched (d : Byte) (n : Nat) (s : State) :
    indirectX d (fetched n s) = (s.memReadWord (zext16 (d + s.x)), (fetched n s).tick 3) := by
  simp [indirectX, readWord, tick_tick]

theorem indirectY_fetched (d : Byte) (n : Nat) (s : State) :
    indirectY d (fetched n s) =
      (s.memReadWord (zext16 d) + zext16 s.y,
        (fetched n s).tick (2 + crossUnit (s.memReadWord (zext16 d)) s.y)) := by
  simp [indirectY, readWord, indexed_eq, tick_tick, crossUnit]

/-- The next state of every load and increment, exactly. -/
theorem exec_writes {i : Instr} {r : Reg8} (s : State) (hd : destination i = some r) :
    exec i s = .next (s.afterWrite r (writtenValue s i) (encode i).length (unitsAfterFetch s i)) := by
  cases i with
  | jmpAbs | jmpInd | jsr | rts | nop | hlt => cases hd
  | ldaImm | ldxImm | ldyImm => cases hd; simp only [State.afterWrite, unitsAfterFetch, tick_zero]; rfl
  | inx | iny => cases hd; rfl
  | ldaZp d => cases hd; exact (loadReg_operandByte .a (zeroPage d) 2 s (zeroPage_eq ..) :)
  | ldaZpX d => cases hd; exact (loadReg_operandByte .a (zeroPageX d) 2 s rfl :)
  | ldaAbs a => cases hd; exact (loadReg_operandByte .a (absolute a) 3 s (absolute_eq ..) :)
  | ldaAbsX a => cases hd; exact (loadReg_operandByte .a (absoluteX a) 3 s (absoluteX_fetched ..) :)
  | ldaAbsY a => cases hd; exact (loadReg_operandByte .a (absoluteY a) 3 s (absoluteY_fetched ..) :)
  | ldaIndX d => cases hd; exact (loadReg_operandByte .a (indirectX d) 2 s (indirectX_fetched ..) :)
  | ldaIndY d => cases hd; exact (loadReg_operandByte .a (indirectY d) 2 s (indirectY_fetched ..) :)
  | ldxZp d => cases hd; exact (loadReg_operandByte .x (zeroPage d) 2 s (zeroPage_eq ..) :)
  | ldxZpY d => cases hd; exact (loadReg_operandByte .x (zeroPageY d) 2 s rfl :)
  | ldxAbs a => cases hd; exact (loadReg_operandByte .x (absolute a) 3 s (absolute_eq ..) :)
  | ldxAbsY a => cases hd; exact (loadReg_operandByte .x (absoluteY a) 3 s (absoluteY_fetched ..) :)
  | ldyZp d => cases hd; exact (loadReg_operandByte .y (zeroPage d) 2 s (zeroPage_eq ..) :)
  | ldyZpX d => cases hd; exact (loadReg_operandByte .y (zeroPageX d) 2 s rfl :)
  | ldyAbs a => cases hd; exact (loadReg_operandByte .y (absolute a) 3 s (absolute_eq ..) :)
  | ldyAbsX a => cases hd; exact (loadReg_operandByte .y (absoluteX a) 3 s (absoluteX_fetched ..) :)

/-! ### What a load or increment depends on -/

section
variable {i : Instr} (s s' : State) (hm : ∀ a, s'.memRead a = s.memRead a) (hx : readsX i = true → s'.x = s.x)
  (hy : readsY i = true → s'.y = s.y)
include hm hx hy

theorem writtenValue_congr : writtenValue s' i = writtenValue s i := by
  cases i with
  | inx | ldaZpX | ldyZpX | ldaAbsX | ldyAbsX | ldaIndX =>
    simp [writtenValue, loadValue, State.memReadWord, hm, hx rfl]
  | iny | ldxZpY | ldaAbsY | ldxAbsY | ldaIndY => simp [writtenValue, loadValue, State.memReadWord, hm, hy rfl]
  | _ => simp [writtenValue, loadValue, hm]

theorem unitsAfterFetch_congr : unitsAfterFetch s' i = unitsAfterFetch s i := by
  cases i with
  | ldaAbsX | ldyAbsX => simp [unitsAfterFetch, hx rfl]
  | ldaAbsY | ldxAbsY | ldaIndY => simp [unitsAfterFetch, State.memReadWord, hm, hy rfl]
  | _ => rfl

/-- The same memory and the same index registers, as far as the instruction reads them: the same byte is written, at the
same cost, whatever else differs. -/
theorem exec_writes_congr {r : Reg8} (hd : destination i = some r) :
    exec i s' = .next (s'.afterWrite r (writtenValue s i) (encode i).length (unitsAfterFetch s i)) := by
  rw [exec_writes s' hd, writtenValue_congr s s' hm hx hy, unitsAfterFetch_congr s s' hm hx hy]

end

/-! ### What the written state holds -/

@[simp] theorem afterWrite_pc (s : State) (r : Reg8) (v : Byte) (n : Nat) (k : Int) :
    (s.afterWrite r v n k).pc = s.pc + BitVec.ofNat 16 n := by
  cases r <;> exact fetched_pc n s

@[simp] theorem afterWrite_sp (s : State) (r : Reg8) (v : Byte) (n : Nat) (k : Int) :
    (s.afterWrite r v n k).sp = s.sp := by
  cases r <;> exact fetched_sp n s

@[simp] theorem afterWrite_reg (s : State) (r : Reg8) (v : Byte) (n : Nat) (k : Int) :
    (s.afterWrite r v n k).reg r = v := by
  cases r <;> rfl

theorem afterWrite_withFlags (s : State) (f : Flags) (r : Reg8) (v : Byte) (n : Nat) (k : Int) :
    State.afterWrite { s with flags := f } r v n k = { s.afterWrite r v n k with flags := f.setZN v } := by
  simp only [State.afterWrite, fetched_eq]
  cases r <;> rfl

theorem afterWrite_withSP (s : State) (p : Byte) (r : Reg8) (v : Byte) (n : Nat) (k : Int) :
    State.afterWrite { s with sp := p } r v n k = { s.afterWrite r v n k with sp := p } := by
  simp only [State.afterWrite, fetched_eq]
  cases r <;> rfl

/-- Another value in a register before: lost in the register written, kept in the others. -/
theorem afterWrite_withReg (s : State) (r' : Reg8) (w : Byte) (r : Reg8) (v : Byte) (n : Nat) (k : Int) :
    (s.withReg r' w).afterWrite r v n k =
      if r = r' then s.afterWrite r v n k else (s.afterWrite r v n k).withReg r' w := by
  simp only [State.afterWrite, fetched_eq]
  cases r <;> cases r' <;> rfl

/-! ## Control transfer, NOP, HLT -/

theorem exec_jmpAbs (a : Word) (s : State) : exec (.jmpAbs a) s = .next { s with pc := a, run := s.run.debit 3 } := by
  simp [exec, execJmpAbs, absolute, fetched_eq, State.setPC, State.tick]

theorem exec_jmpInd (p : Word) (s : State) :
    exec (.jmpInd p) s = .next { s with pc := s.memReadWord p, run := s.run.debit 5 } := by
  simp only [exec, execJmpInd, jumpIndirect, readWord, fetched_memReadWord]
  simp [fetched_eq, State.setPC, State.tick, RunState.debit_debit]

theorem exec_jsr (a : Word) (s : State) :
    exec (.jsr a) s = .next { s.memWriteWord (stackAddr s.sp) (s.pc + 3) with
      sp := s.sp + 2, pc := a, run := s.run.debit 6 } := by
  simp [exec, execJsr, absolute, writeWord, fetched_eq, State.setPC, State.setSP, State.tick, State.memWriteWord,
    State.memWrite, RunState.debit_debit]

theorem exec_rts (s : State) :
    exec .rts s = .next { s with
      sp := s.sp - 2, pc := s.memReadWord (stackAddr (s.sp - 2)), run := s.run.debit 6 } := by
  simp only [exec, execRts, readWord, fetched_memReadWord, fetched_sp]
  simp [fetched_eq, State.setPC, State.setSP, State.tick, RunState.debit_debit]

theorem exec_nop (s : State) : exec .nop s = .next { s with pc := s.pc + 1, run := s.run.debit 2 } := by
  simp [exec, execNop, fetched_eq, State.setPC, State.tick, RunState.debit_debit]

/-- The halt record after HLT: its own while Running, the old one where there is no run to end. -/
def recordAfterHlt (s : State) : Option HaltRecord :=
  match s.run with
  | .halted => s.haltRecord
  | .running _ => some ⟨.haltOpcode, 0⟩

theorem exec_hlt (s : State) :
    exec .hlt s = .next { s with pc := s.pc + 1, run := .halted, haltRecord := recordAfterHlt s } := by
  cases hr : s.run with
  | halted => simp [execHlt_halted s hr, recordAfterHlt, hr]
  | running b => simp [execHlt_running s b hr, recordAfterHlt, hr]

end Sys2Proof.Machine
end

section
/-! SUPPORT. Proofs of the statements about state (spec/10_state.md): what the flags depend on, what depends on no flag and
on no unread register, where PC goes, and what lasts through every step. -/

namespace Sys2Proof.Machine

/-! ## Flags (R27, R28) -/

/-- The flags an instruction leaves from flags `f`, in the next state `t`: SetZN of the register written, if one is. -/
def flagsAfter (i : Instr) (t : State) (f : Flags) : Flags :=
  match destination i with
  | some r => f.setZN (t.reg r)
  | none => f

theorem flagsAfter_some {i : Instr} {r : Reg8} (hd : destination i = some r) (t : State) (f : Flags) :
    flagsAfter i t f = f.setZN (t.reg r) := by
  simp [flagsAfter, hd]

theorem flagsAfter_none {i : Instr} (hd : destination i = none) (t : State) (f : Flags) : flagsAfter i t f = f := by
  simp [flagsAfter, hd]

/-- Other flags before: the same next state, but for the flags carried through. -/
theorem exec_withFlags {i : Instr} {s t : State} (f : Flags) (h : exec i s = .next t) :
    exec i { s with flags := f } = .next { t with flags := flagsAfter i t f } := by
  cases hd : destination i with
  | some r =>
    have hs := exec_writes_congr s { s with flags := f } (fun _ => rfl) (fun _ => rfl) (fun _ => rfl) hd
    rw [exec_writes s hd] at h
    cases h
    rw [hs, afterWrite_withFlags, flagsAfter_some hd, afterWrite_reg]
  | none =>
    rw [flagsAfter_none hd]
    match i, hd with
    | .jmpAbs _, _ => rw [exec_jmpAbs] at h ⊢; cases h; rfl
    | .jmpInd _, _ => rw [exec_jmpInd] at h ⊢; cases h; rfl
    | .jsr _, _ => rw [exec_jsr] at h ⊢; cases h; rfl
    | .rts, _ => rw [exec_rts] at h ⊢; cases h; rfl
    | .nop, _ => rw [exec_nop] at h ⊢; cases h; rfl
    | .hlt, _ => rw [exec_hlt] at h ⊢; cases h; rfl

/-- The flags after an instruction: `exec_withFlags` at the flags there were. -/
theorem exec_flags {i : Instr} {s t : State} (h : exec i s = .next t) : t.flags = flagsAfter i t s.flags := by
  have hs := exec_withFlags s.flags h
  rw [show ({ s with flags := s.flags } : State) = s from rfl, h, Host.Outcome.next.injEq] at hs
  exact congrArg State.flags hs

theorem zeroFlag_eq_decide (v : Byte) : zeroFlag v = decide (v = 0x00) := rfl

/-- Settles O30: the flags are SetZN of the register written, or as before, and the rest ignores them. -/
theorem zeroAndNegativeDescribeTheWrittenRegister : Obligations.ZeroAndNegativeDescribeTheWrittenRegister := by
  refine ⟨fun _ _ => rfl, fun i s t h => ?_, fun s => ?_, fun i s t f h => ⟨_, exec_withFlags f h, rfl⟩⟩
  · have hf := exec_flags h
    cases hd : destination i with
    | some r =>
      rw [flagsAfter_some hd] at hf
      simp [hf, zeroFlag_eq_decide, negativeFlag]
    | none =>
      rw [flagsAfter_none hd] at hf
      simp [hf]
  · simp

theorem flagsAfter_sameOthers (i : Instr) (t : State) (f : Flags) : (flagsAfter i t f).sameOthers f := by
  unfold flagsAfter
  split <;> exact ⟨rfl, rfl, rfl, rfl, rfl⟩

theorem exec_sameOthers {i : Instr} {s t : State} (h : exec i s = .next t) : t.flags.sameOthers s.flags :=
  exec_flags h ▸ flagsAfter_sameOthers i t s.flags

/-- From flags with the same Z and N come the same Z and N; the other five are carried through. -/
theorem flagsAfter_of_same_zn (i : Instr) (t : State) {f g : Flags} (hz : f.z = g.z) (hn : f.n = g.n) :
    flagsAfter i t f = { f with z := (flagsAfter i t g).z, n := (flagsAfter i t g).n } := by
  unfold flagsAfter
  split
  · rfl
  · simp [← hz, ← hn]

theorem Flags.othersClear_of_sameOthers {f g : Flags} (h : f.sameOthers g) (hg : g.othersClear) : f.othersClear := by
  obtain ⟨hc, hi, hd, hb, hv⟩ := h
  obtain ⟨gc, gi, gd, gb, gv⟩ := hg
  exact ⟨hc.trans gc, hi.trans gi, hd.trans gd, hb.trans gb, hv.trans gv⟩

theorem hostMove_keeps_othersClear {m : HostMove} {s t : State} (hs : s.flags.othersClear)
    (h : hostMove m s = .next t) : t.flags.othersClear := by
  obtain ⟨-, rfl⟩ | ⟨-, rfl⟩ | ⟨a, v, -, rfl⟩ | ⟨a, v, -, rfl⟩ | ⟨b, -, -, rfl⟩ := hostMove_cases m s t h
  · exact ⟨rfl, rfl, rfl, rfl, rfl⟩
  · exact hs
  · exact hs
  · exact hs
  · rwa [beginRun_flags]

/-- "After reset they are 0 for ever" (R28). -/
theorem step_keeps_othersClear {s t : State} (hs : s.flags.othersClear) (h : step s = .next t) :
    t.flags.othersClear := by
  cases step_cases s t h with
  | idle => exact hs
  | host m rest t hr hm hmove => exact hostMove_keeps_othersClear (s := { s with hostMoves := rest }) hs hmove
  | spent => rwa [loopTest_flags]
  | illegal => rwa [takeIllegalOpcode_flags]
  | instr b i rest u hr hb hd he =>
    rw [loopTest_flags]
    exact Flags.othersClear_of_sameOthers (exec_sameOthers he) hs

/-- Settles O31: instructions carry the five flags through, and every step keeps them clear. -/
theorem otherFlagsAreNeitherWrittenNorRead : Obligations.OtherFlagsAreNeitherWrittenNorRead := by
  refine ⟨fun _ => ⟨rfl, rfl, rfl, rfl, rfl⟩, fun _ _ _ h => exec_sameOthers h, fun s => ?_, fun i s t f hz hn h => ?_,
    fun _ _ hs h => step_keeps_othersClear hs h⟩
  · rw [takeIllegalOpcode_flags]
    exact ⟨rfl, rfl, rfl, rfl, rfl⟩
  · rw [exec_withFlags f h, flagsAfter_of_same_zn i t hz hn, ← exec_flags h]

/-! ## Registers (R21, R22) -/

theorem memRead_withReg (s : State) (r : Reg8) (v : Byte) (a : Word) : (s.withReg r v).memRead a = s.memRead a := by
  cases r <;> rfl

/-- An instruction that reads X, not the replaced register, reads the X there was. -/
theorem withReg_x_of_readsX {i : Instr} {r : Reg8} (hr : readsReg i r = false) (s : State) (v : Byte)
    (hx : readsX i = true) : (s.withReg r v).x = s.x := by
  cases r with
  | x => exact absurd (hr.symm.trans hx) Bool.false_ne_true
  | a | y => rfl

/-- As `withReg_x_of_readsX`, for Y. -/
theorem withReg_y_of_readsY {i : Instr} {r : Reg8} (hr : readsReg i r = false) (s : State) (v : Byte)
    (hy : readsY i = true) : (s.withReg r v).y = s.y := by
  cases r with
  | y => exact absurd (hr.symm.trans hy) Bool.false_ne_true
  | a | x => rfl

/-- Another value in a register the instruction does not read. -/
theorem exec_withReg {i : Instr} {s t : State} {r : Reg8} (v : Byte) (hr : readsReg i r = false)
    (h : exec i s = .next t) :
    exec i (s.withReg r v) = .next (if destination i = some r then t else t.withReg r v) := by
  cases hd : destination i with
  | some d =>
    have hs := exec_writes_congr s (s.withReg r v) (memRead_withReg s r v) (withReg_x_of_readsX hr s v)
      (withReg_y_of_readsY hr s v) hd
    rw [exec_writes s hd] at h
    cases h
    simp only [hs, afterWrite_withReg, Option.some.injEq]
  | none =>
    match i, hd with
    | .jmpAbs _, _ => rw [exec_jmpAbs] at h ⊢; cases h; cases r <;> rfl
    | .jmpInd _, _ => rw [exec_jmpInd] at h ⊢; cases h; cases r <;> rfl
    | .jsr _, _ => rw [exec_jsr] at h ⊢; cases h; cases r <;> rfl
    | .rts, _ => rw [exec_rts] at h ⊢; cases h; cases r <;> rfl
    | .nop, _ => rw [exec_nop] at h ⊢; cases h; cases r <;> rfl
    | .hlt, _ => rw [exec_hlt] at h ⊢; cases h; cases r <;> rfl

/-- Another SP under an instruction other than JSR and RTS. -/
theorem exec_withSP {i : Instr} {s t : State} (v : Byte) (hi : usesSP i = false) (h : exec i s = .next t) :
    t.sp = s.sp ∧ exec i { s with sp := v } = .next { t with sp := v } := by
  cases hd : destination i with
  | some r =>
    have hs := exec_writes_congr s { s with sp := v } (fun _ => rfl) (fun _ => rfl) (fun _ => rfl) hd
    rw [exec_writes s hd] at h
    cases h
    exact ⟨afterWrite_sp .., by rw [hs, afterWrite_withSP]⟩
  | none =>
    match i, hd, hi with
    | .jmpAbs _, _, _ => rw [exec_jmpAbs] at h ⊢; cases h; exact ⟨rfl, rfl⟩
    | .jmpInd _, _, _ => rw [exec_jmpInd] at h ⊢; cases h; exact ⟨rfl, rfl⟩
    | .nop, _, _ => rw [exec_nop] at h ⊢; cases h; exact ⟨rfl, rfl⟩
    | .hlt, _, _ => rw [exec_hlt] at h ⊢; cases h; exact ⟨rfl, rfl⟩

/-- Settles O32: an instruction depends on the general registers `readsReg` names, and on SP in JSR and RTS only. -/
theorem unreadRegistersDoNotInfluence : Obligations.UnreadRegistersDoNotInfluence :=
  ⟨fun _ _ _ _ v hr h => exec_withReg v hr h, fun _ _ _ v hi h => exec_withSP v hi h⟩

/-! ## The program counter (R24, R25) -/

/-- A load or increment leaves PC its length further. -/
theorem exec_pc_of_destination {i : Instr} {r : Reg8} {s t : State} (hd : destination i = some r)
    (h : exec i s = .next t) : t.pc = s.pc + BitVec.ofNat 16 (encode i).length := by
  rw [exec_writes s hd] at h
  cases h
  exact afterWrite_pc ..

/-- PC after 0xFFFF is 0x0000, for the fetch and for the window (R25). -/
theorem fetch_wraps_at_top {s : State} (h : s.pc = 0xFFFF) :
    (fetchByte s).1 = s.memRead 0xFFFF ∧ (fetchByte s).2.pc = 0x0000 ∧
      fetchWindow s = [s.memRead 0xFFFF, s.memRead 0x0000, s.memRead 0x0001] := by
  refine ⟨?_, ?_, ?_⟩
  · simp [fetchByte, h]
  · simp [fetchByte, h]
  · simp [fetchWindow_eq, h]

/-- Settles O33: transfers leave PC at their target, every other instruction its length further. -/
theorem programCounterAfterEachInstruction : Obligations.ProgramCounterAfterEachInstruction := by
  refine ⟨fun s h => fetch_wraps_at_top h, fun i s t h => ?_, fun s b hr => ?_⟩
  · cases i with
    | jmpAbs => rw [exec_jmpAbs] at h; cases h; rfl
    | jmpInd => rw [exec_jmpInd] at h; cases h; rfl
    | jsr => rw [exec_jsr] at h; cases h; rfl
    | rts => rw [exec_rts] at h; cases h; rfl
    | nop => rw [exec_nop] at h; cases h; rfl
    | hlt => rw [exec_hlt] at h; cases h; rfl
    | _ => exact exec_pc_of_destination rfl h
  · rw [takeIllegalOpcode_running s b hr]

/-! ## What a run leaves to the host (R15, R31, R37) -/

/-- No instruction writes the configuration, the host's moves or the reset bit. -/
theorem exec_keeps_surroundings {i : Instr} {s t : State} (h : exec i s = .next t) :
    t.config = s.config ∧ t.hostMoves = s.hostMoves ∧ t.everReset = s.everReset := by
  cases exec_cases i s t h <;> simp

theorem hostMove_config {m : HostMove} {s t : State} (h : hostMove m s = .next t) : t.config = s.config := by
  obtain ⟨-, rfl⟩ | ⟨-, rfl⟩ | ⟨a, v, -, rfl⟩ | ⟨a, v, -, rfl⟩ | ⟨b, -, -, rfl⟩ := hostMove_cases m s t h
  · rfl
  · rfl
  · rfl
  · rfl
  · exact beginRun_config b s

/-- Nothing interrupts a run: no step of it changes what surrounds the core. -/
theorem step_of_running_keeps_surroundings {s t : State} {b : Int} (hr : s.run = .running b) (h : step s = .next t) :
    t.config = s.config ∧ t.hostMoves = s.hostMoves ∧ t.everReset = s.everReset := by
  cases step_cases s t h with
  | idle hh | host _ _ _ hh => exact absurd (hr.symm.trans hh) nofun
  | spent | illegal => simp
  | instr c i rest u hc hpos hd he => simpa using exec_keeps_surroundings he

theorem step_config {s t : State} (h : step s = .next t) : t.config = s.config := by
  cases hr : s.run with
  | running b => exact (step_of_running_keeps_surroundings hr h).1
  | halted =>
    cases hm : s.hostMoves with
    | nil =>
      rw [step_idle s hr hm] at h
      cases h
      rfl
    | cons m rest =>
      rw [step_hostMove s m rest hr hm] at h
      exact (hostMove_config h :)

/-- Settles O46: the core's half of the step keeps what surrounds it, the host's half keeps the configuration. -/
theorem configurationIsConstantAndTheHostWaits : Obligations.ConfigurationIsConstantAndTheHostWaits :=
  ⟨fun _ _ h => step_config h, fun _ _ _ hr h => (step_of_running_keeps_surroundings hr h).2⟩

/-- Settles O42: the host's next move is `run`, and no reset has happened. -/
theorem runBeforeResetIsRefused : Obligations.RunBeforeResetIsRefused := by
  intro s b rest hr he hm
  rw [step_hostMove s _ rest hr hm]
  simp [hostMove, he]

end Sys2Proof.Machine
end

section
/-! SUPPORT. Proofs of the statements about memory (spec/20_memory.md): what the host's writes and the memory's reset
leave in every cell, and the canonical form told apart by its reads. -/

namespace Sys2Proof.Machine

/-! ## A word written and read back (R43, R44, R62) -/

/-- The two addresses of a word differ, at 0xFFFF too. -/
theorem word_add_one_ne (a : Word) : a + 1 ≠ a := by bv_omega

theorem memRead_memWriteWord_low (s : State) (a v : Word) : (s.memWriteWord a v).memRead a = lowByte v := by
  rw [memRead_memWriteWord, if_neg (word_add_one_ne a), if_pos rfl]

theorem memRead_memWriteWord_high (s : State) (a v : Word) : (s.memWriteWord a v).memRead (a + 1) = highByte v := by
  rw [memRead_memWriteWord, if_pos rfl]

theorem memRead_memWriteWord_other (s : State) (v : Word) {a b : Word} (hb : b ≠ a) (hb' : b ≠ a + 1) :
    (s.memWriteWord a v).memRead b = s.memRead b := by
  rw [memRead_memWriteWord, if_neg hb'.symm, if_neg hb.symm]

/-- `read_word` of R43 gives back what `write_word` of R44 stored, at every address. -/
theorem memReadWord_memWriteWord (s : State) (a v : Word) : (s.memWriteWord a v).memReadWord a = v := by
  rw [State.memReadWord, memRead_memWriteWord_low, memRead_memWriteWord_high, wordOf_high_low]

/-- The host reads back the word it wrote. -/
theorem hostReadWord_memWriteWord {s : State} (hr : s.run = .halted) (a v : Word) :
    hostReadWord (s.memWriteWord a v) a = some v := by
  have hr' : (s.memWriteWord a v).run = .halted := by rw [memWriteWord_run, hr]
  rw [hostReadWord_halted hr', memReadWord_memWriteWord]

/-- Settles O7: the step is `memWriteWord`, whose two bytes, other bytes and word read back are the lemmas above. -/
theorem hostWordWriteIsLittleEndianAndWraps : Obligations.HostWordWriteIsLittleEndianAndWraps := by
  intro s addr v rest hr hm
  refine ⟨State.memWriteWord { s with hostMoves := rest } addr v, step_hostMove s _ rest hr hm, rfl, ?_, ?_, ?_, ?_⟩
  · rw [memRead_memWriteWord_low, lowByte_toNat]
  · rw [memRead_memWriteWord_high, highByte_toNat]
  · exact fun b hb hb' => memRead_memWriteWord_other _ v hb hb'
  · exact hostReadWord_memWriteWord hr addr v

/-! ## The canonical form (R40, R45) -/

theorem Memory.wfFrom_cons {fill w : Byte} {lo k : Nat} {rest : Memory} :
    Memory.wfFrom fill lo ((k, w) :: rest) = true ↔
      lo ≤ k ∧ k < 65536 ∧ w ≠ fill ∧ Memory.wfFrom fill (k + 1) rest = true := by
  simp [Memory.wfFrom, and_assoc]

theorem Memory.read_cons_self (fill w : Byte) (k : Nat) (rest : Memory) :
    Memory.read fill ((k, w) :: rest) k = w := if_pos rfl

theorem Memory.read_cons_ne (fill w : Byte) {k a : Nat} (rest : Memory) (h : k ≠ a) :
    Memory.read fill ((k, w) :: rest) a = Memory.read fill rest a := if_neg h

/-- Below the bound its addresses rise from, a canonical memory lists nothing. -/
theorem Memory.read_below {fill : Byte} {m : Memory} {lo a : Nat} (hm : Memory.wfFrom fill lo m = true) (ha : a < lo) :
    Memory.read fill m a = fill := by
  induction m generalizing lo with
  | nil => rfl
  | cons c rest ih =>
    obtain ⟨hk, -, -, hrest⟩ := Memory.wfFrom_cons.mp hm
    rw [Memory.read_cons_ne _ _ _ (by omega), ih hrest (by omega)]

/-- A memory that reads like one with first cell `k` has no bound above `k`: it would read `fill` there. -/
theorem Memory.bound_le_of_reads_alike {fill w : Byte} {m rest : Memory} {lo lo' k : Nat}
    (hc : Memory.wfFrom fill lo ((k, w) :: rest) = true) (hm : Memory.wfFrom fill lo' m = true)
    (h : ∀ a < 65536, Memory.read fill ((k, w) :: rest) a = Memory.read fill m a) : lo' ≤ k := by
  obtain ⟨-, hk, hw, -⟩ := Memory.wfFrom_cons.mp hc
  by_contra hlt
  have hread := h k hk
  rw [Memory.read_cons_self, Memory.read_below hm (by omega)] at hread
  exact hw hread

/-- Canonical memories, from whatever bounds, are told apart by some read below 65536. -/
theorem Memory.eq_of_reads_alike {fill : Byte} {m m' : Memory} {lo lo' : Nat} (hm : Memory.wfFrom fill lo m = true)
    (hm' : Memory.wfFrom fill lo' m' = true)
    (h : ∀ a < 65536, Memory.read fill m a = Memory.read fill m' a) : m = m' := by
  induction m generalizing m' lo lo' with
  | nil =>
    cases m' with
    | nil => rfl
    | cons c' rest' =>
      have htop : 65536 ≤ c'.1 := Memory.bound_le_of_reads_alike hm' (m := []) rfl (fun a ha => (h a ha).symm)
      obtain ⟨-, hk', -⟩ := Memory.wfFrom_cons.mp hm'
      omega
  | cons c rest ih =>
    obtain ⟨k, w⟩ := c
    obtain ⟨-, hk, hw, hrest⟩ := Memory.wfFrom_cons.mp hm
    cases m' with
    | nil =>
      have htop : 65536 ≤ k := Memory.bound_le_of_reads_alike hm (m := []) rfl h
      omega
    | cons c' rest' =>
      obtain ⟨k', w'⟩ := c'
      obtain ⟨-, hk', hw', hrest'⟩ := Memory.wfFrom_cons.mp hm'
      have hle : k' ≤ k :=
        Memory.bound_le_of_reads_alike hm (Memory.wfFrom_cons.mpr ⟨le_rfl, hk', hw', hrest'⟩) h
      have hge : k ≤ k' :=
        Memory.bound_le_of_reads_alike hm' (Memory.wfFrom_cons.mpr ⟨le_rfl, hk, hw, hrest⟩)
          (fun a ha => (h a ha).symm)
      obtain rfl : k = k' := le_antisymm hge hle
      have hbyte : w = w' := by simpa only [Memory.read_cons_self] using h k hk
      have htail : ∀ a < 65536, Memory.read fill rest a = Memory.read fill rest' a := by
        intro a ha
        by_cases hka : k = a
        · rw [Memory.read_below hrest (by omega), Memory.read_below hrest' (by omega)]
        · simpa only [Memory.read_cons_ne _ _ _ hka] using h a ha
      rw [hbyte, ih hrest hrest' htail]

/-- Settles O8: `Memory.eq_of_reads_alike` from bound 0, the words being the addresses below 65536. -/
theorem canonicalMemoriesThatReadAlikeAreEqual : Obligations.CanonicalMemoriesThatReadAlikeAreEqual :=
  fun _ _ _ hm hm' h => Memory.eq_of_reads_alike hm hm' fun a ha => by
    simpa only [BitVec.toNat_ofNat, Nat.mod_eq_of_lt ha] using h (BitVec.ofNat 16 a)

/-! ## A byte written, and the memory's own reset (R42, R45, R202) -/

/-- Settles O6: the step is `memWrite`, whose every byte `memRead_memWrite` gives. -/
theorem hostByteWriteChangesOneCell : Obligations.HostByteWriteChangesOneCell := by
  intro s addr v rest hr hm
  refine ⟨State.memWrite { s with hostMoves := rest } addr v, step_hostMove s _ rest hr hm, rfl, fun b => ?_⟩
  exact (memRead_memWrite _ addr b v).trans (if_congr eq_comm rfl rfl)

/-- Settles O44: the step is `memReset`. -/
theorem memoryResetChangesMemoryOnly : Obligations.MemoryResetChangesMemoryOnly :=
  fun s rest hr hm =>
    ⟨memReset { s with hostMoves := rest }, step_hostMove s _ rest hr hm, rfl, memRead_memReset _⟩

end Sys2Proof.Machine
end

section
/-! SUPPORT. Proofs of the statements about encoding (spec/30_encoding.md). The decoder, the encoder and the table of
lengths are each tied to the rows of the opcode table by what a row spells, and the statements compare them there. -/

namespace Sys2Proof

open Machine (listedOpcodes wordOf)

/-! ## What a row of the opcode table spells (R70 to R75) -/

/-- The opcode `op`, in this format, spells the instruction in these bytes. -/
inductive Format.Spells (op : Byte) : Format → Instr → List Byte → Prop where
  | imp (i : Instr) : Spells op (.imp i) i [op]
  | op8 (mk : Byte → Instr) (d8 : Byte) : Spells op (.op8 mk) (mk d8) [op, d8]
  | op16 (mk : Word → Instr) (a16 : Word) : Spells op (.op16 mk) (mk a16) (encodeOp16 op a16)

/-- How many bytes an instruction of the format has (R70). -/
def Format.length : Format → Nat
  | .imp _ => 1
  | .op8 _ => 2
  | .op16 _ => 3

/-- Any two operand bytes are the operand word with the first of them low (R75). -/
theorem Format.spells_op16_bytes (op lo hi : Byte) (mk : Word → Instr) :
    Format.Spells op (.op16 mk) (mk (wordOf hi lo)) [op, lo, hi] := by
  simpa [encodeOp16] using Spells.op16 (op := op) mk (wordOf hi lo)

/-- A format spells every string with the opcode and of its length: operand bytes are never checked (R84). -/
theorem Format.exists_spells_iff {op b : Byte} {f : Format} {operands : List Byte} :
    (∃ i, f.Spells op i (b :: operands)) ↔ op = b ∧ f.length = operands.length + 1 := by
  constructor
  · rintro ⟨i, h⟩
    cases h <;> exact ⟨rfl, rfl⟩
  · rintro ⟨rfl, hlen⟩
    have hops : operands.length = f.length - 1 := by omega
    cases f with
    | imp i =>
      obtain rfl := List.length_eq_zero_iff.mp hops
      exact ⟨i, .imp i⟩
    | op8 mk =>
      obtain ⟨d8, rfl⟩ := List.length_eq_one_iff.mp hops
      exact ⟨mk d8, .op8 mk d8⟩
    | op16 mk =>
      obtain ⟨lo, hi, rfl⟩ := List.length_eq_two.mp hops
      exact ⟨mk (wordOf hi lo), spells_op16_bytes op lo hi mk⟩

/-! ## The opcodes of the rows (R76, R77) -/

/-- The opcodes of the rows are the bytes R77 lists, each once. -/
theorem opcodes_perm_listedOpcodes : (opcodeTable.map (fun r => r.opcode)).Perm listedOpcodes := by decide

theorem mem_listedOpcodes_iff {op : Byte} : op ∈ listedOpcodes ↔ ∃ row ∈ opcodeTable, row.opcode = op := by
  rw [← opcodes_perm_listedOpcodes.mem_iff, List.mem_map]

/-- No row of the table hides another from the look-up. -/
theorem lookupOpcode_of_mem {row : OpcodeRow} (h : row ∈ opcodeTable) : lookupOpcode row.opcode = some row := by
  fin_cases h <;> rfl

theorem lookupOpcode_eq_some_iff {op : Byte} {row : OpcodeRow} :
    lookupOpcode op = some row ↔ row ∈ opcodeTable ∧ row.opcode = op := by
  constructor
  · intro h
    have hop : (row.opcode == op) = true := List.find?_some (p := fun r : OpcodeRow => r.opcode == op) h
    exact ⟨List.mem_of_find?_eq_some h, eq_of_beq hop⟩
  · rintro ⟨hrow, rfl⟩
    exact lookupOpcode_of_mem hrow

theorem lookupOpcode_eq_none {op : Byte} (h : op ∉ listedOpcodes) : lookupOpcode op = none := by
  refine Option.eq_none_iff_forall_ne_some.mpr fun row hrow => h ?_
  exact mem_listedOpcodes_iff.mpr ⟨row, lookupOpcode_eq_some_iff.mp hrow⟩

theorem decode_cons_of_not_listed {op : Byte} (h : op ∉ listedOpcodes) (rest : List Byte) :
    decode (op :: rest) = .error (.illegalOpcode op) := by
  rw [decode, lookupOpcode_eq_none h]

/-- Settles O4: the rows' opcodes are the listed bytes, and the look-up finds each row by its own. -/
theorem bytesOutsideTheListAreIllegal : Obligations.BytesOutsideTheListAreIllegal := by
  refine ⟨fun op hop => ?_, fun op rest hop => ⟨lookupOpcode_eq_none hop, decode_cons_of_not_listed hop rest⟩⟩
  obtain ⟨row, hrow, rfl⟩ := mem_listedOpcodes_iff.mp hop
  exact ⟨row, hrow, rfl, lookupOpcode_of_mem hrow⟩

/-! ## The decoder and the encoder, by the rows -/

theorem decode_of_spells {row : OpcodeRow} {i : Instr} {front : List Byte} (hrow : row ∈ opcodeTable)
    (h : row.format.Spells row.opcode i front) (rest : List Byte) : decode (front ++ rest) = .ok (i, rest) := by
  have hl := lookupOpcode_of_mem hrow
  obtain ⟨op, f, cost, pen⟩ := row
  cases h with
  | imp | op8 | op16 => simp [decode, encodeOp16, hl]

theorem exists_spells_of_decode {bytes rest : List Byte} {i : Instr} (h : decode bytes = .ok (i, rest)) :
    ∃ row ∈ opcodeTable, ∃ front, row.format.Spells row.opcode i front ∧ bytes = front ++ rest := by
  unfold decode at h
  split at h
  next => cases h
  next op tail =>
    split at h
    next => cases h
    next row hl =>
      obtain ⟨hrow, rfl⟩ := lookupOpcode_eq_some_iff.mp hl
      refine ⟨row, hrow, ?_⟩
      split at h
      next hf =>
        cases h
        exact ⟨_, hf ▸ Format.Spells.imp i, rfl⟩
      next mk d8 _ hf =>
        cases h
        exact ⟨_, hf ▸ Format.Spells.op8 mk d8, rfl⟩
      next mk lo hi _ hf =>
        cases h
        exact ⟨_, hf ▸ Format.spells_op16_bytes row.opcode lo hi mk, rfl⟩
      next => cases h

/-- The decoder reads off the front of a string what a row spells. -/
theorem decode_eq_ok_iff {bytes rest : List Byte} {i : Instr} :
    decode bytes = .ok (i, rest) ↔
      ∃ row ∈ opcodeTable, ∃ front, row.format.Spells row.opcode i front ∧ bytes = front ++ rest := by
  constructor
  · exact exists_spells_of_decode
  · rintro ⟨row, hrow, front, hspells, rfl⟩
    exact decode_of_spells hrow hspells rest

/-- The encoder writes what each row spells. -/
theorem eq_encode_of_spells {row : OpcodeRow} {i : Instr} {front : List Byte} (hrow : row ∈ opcodeTable)
    (h : row.format.Spells row.opcode i front) : front = encode i := by
  fin_cases hrow <;> cases h <;> rfl

/-- The first byte of every encoding selects a row, and the row spells that encoding. -/
theorem exists_row_spells_encode (i : Instr) :
    ∃ row, lookupOpcode ((encode i).headD 0x00) = some row ∧ row.format.Spells row.opcode i (encode i) := by
  cases i with
  | rts | nop | hlt | inx | iny => exact ⟨_, rfl, .imp _⟩
  | ldaAbs a16 | ldaAbsX a16 | ldaAbsY a16 | ldxAbs a16 | ldxAbsY a16 | ldyAbs a16 | ldyAbsX a16 | jmpAbs a16
  | jmpInd a16 | jsr a16 => exact ⟨_, rfl, .op16 _ a16⟩
  | _ => exact ⟨_, rfl, .op8 _ _⟩

/-- Settles O1: the instruction's row spells its encoding. -/
theorem decodeAfterEncodeGivesTheInstruction : Obligations.DecodeAfterEncodeGivesTheInstruction := by
  intro i rest
  obtain ⟨row, hl, hspells⟩ := exists_row_spells_encode i
  exact decode_of_spells (lookupOpcode_eq_some_iff.mp hl).1 hspells rest

/-- Settles O2: a row spells the bytes read, and what a row spells is the encoding. -/
theorem encodeAfterDecodeGivesTheBytes : Obligations.EncodeAfterDecodeGivesTheBytes := by
  intro bytes i rest h
  obtain ⟨row, hrow, front, hspells, rfl⟩ := exists_spells_of_decode h
  rw [eq_encode_of_spells hrow hspells]

/-! ## The table of lengths, by the rows -/

theorem opcodeLength_of_mem {row : OpcodeRow} (h : row ∈ opcodeTable) :
    opcodeLength row.opcode = some row.format.length := by
  fin_cases h <;> rfl

/-- A byte with a length is one of the three lists of R70, whose bytes R77 lists. -/
theorem mem_listedOpcodes_of_opcodeLength {op : Byte} {n : Nat} (h : opcodeLength op = some n) :
    op ∈ listedOpcodes := by
  unfold opcodeLength at h
  split_ifs at h with hop hop hop
  all_goals exact (by decide : _ ⊆ listedOpcodes) hop

theorem opcodeLength_eq_some_iff {op : Byte} {n : Nat} :
    opcodeLength op = some n ↔ ∃ row ∈ opcodeTable, row.opcode = op ∧ row.format.length = n := by
  constructor
  · intro h
    obtain ⟨row, hrow, rfl⟩ := mem_listedOpcodes_iff.mp (mem_listedOpcodes_of_opcodeLength h)
    exact ⟨row, hrow, rfl, Option.some.inj ((opcodeLength_of_mem hrow).symm.trans h)⟩
  · rintro ⟨row, hrow, rfl, rfl⟩
    exact opcodeLength_of_mem hrow

theorem wellFormedBytes_cons_iff {op : Byte} {operands : List Byte} :
    wellFormedBytes (op :: operands) = true ↔ opcodeLength op = some (operands.length + 1) := by
  simp only [wellFormedBytes]
  split
  next hn => simp [hn]
  next n hn => rw [hn, beq_iff_eq, Option.some.injEq, eq_comm]

/-- Settles O3: on both sides the string is one that a row spells. -/
theorem decodeAcceptsExactlyTheWellFormedStrings : Obligations.DecodeAcceptsExactlyTheWellFormedStrings := by
  intro bytes
  cases bytes with
  | nil => simp [decode, wellFormedBytes]
  | cons op operands =>
    calc (∃ i, decode (op :: operands) = .ok (i, []))
        ↔ ∃ row ∈ opcodeTable, ∃ i, row.format.Spells row.opcode i (op :: operands) := by
          simp only [decode_eq_ok_iff, List.append_nil, exists_eq_right']
          exact ⟨fun ⟨i, row, hrow, h⟩ => ⟨row, hrow, i, h⟩, fun ⟨row, hrow, i, h⟩ => ⟨i, row, hrow, h⟩⟩
      _ ↔ ∃ row ∈ opcodeTable, row.opcode = op ∧ row.format.length = operands.length + 1 := by
          simp only [Format.exists_spells_iff]
      _ ↔ wellFormedBytes (op :: operands) = true := by
          rw [wellFormedBytes_cons_iff, opcodeLength_eq_some_iff]

/-- Settles O5: each word evaluates. -/
theorem wordsOfEachFamilyDecode : Obligations.WordsOfEachFamilyDecode :=
  ⟨rfl, rfl, rfl, rfl, rfl, rfl, rfl⟩

end Sys2Proof
end

section
/-! SUPPORT. Proofs of the statements about the run loop (spec/40_execution_loop.md), part 1: what is fetched, the turn of
the loop, starting a run, and what an instruction costs. -/

namespace Sys2Proof.Machine

/-! ## Fetching (R93, R94) -/

theorem fetchByte_running {s : State} {b : Int} (hr : s.run = .running b) :
    fetchByte s = (s.memRead s.pc, { s with pc := s.pc + 1, run := .running (b - 1) }) := by
  simp [fetchByte, State.setPC, State.tick, hr]

/-- Settles O9: one fetch by its equation, the window and the fetches of an instruction by their definitions. -/
theorem fetchByteReadsAdvancesAndDebits : Obligations.FetchByteReadsAdvancesAndDebits :=
  ⟨fun _ _ hr => fetchByte_running hr, fun _ => rfl, fun _ => ⟨rfl, rfl, rfl⟩⟩

/-! ## The turn of the loop (R91, R92) -/

/-- While Running with budget left, the decoded instruction runs and the budget is tested. -/
theorem step_instr {s t : State} {b : Int} {i : Instr} {rest : List Byte} (hr : s.run = .running b) (hb : 0 < b)
    (hd : decode (fetchWindow s) = .ok (i, rest)) (he : exec i s = .next t) : step s = .next (loopTest t) := by
  rw [step_running s b hr hb, runStep, hd]
  simp [he, afterInstruction]

/-- Settles O36: the window decodes to the instruction, which answers; and the two outcomes of the budget test. -/
theorem stepRunsTheDecodedInstruction : Obligations.StepRunsTheDecodedInstruction := by
  refine ⟨fun s b i rest hr hb _ hd => ?_, fun t b hr => ?_, loopTest_halted⟩
  · obtain ⟨t, he⟩ := exec_answers i s
    have hpc : s.pc + 1 + 1 = s.pc + 2 := BitVec.add_assoc ..
    exact ⟨t, he, step_instr hr hb (by rw [fetchWindow_eq, hpc, hd]) he⟩
  · split
    next hb => exact loopTest_positive t b hr hb
    next hb => exact loopTest_exhausted t b hr (by omega)

/-- Settles O37: the opcode's row fixes how many bytes of the window are the operand, and those are the bytes fetched. -/
theorem stepAgreesWithByteByByteFetch : Obligations.StepAgreesWithByteByByteFetch := by
  intro s b hr hb
  cases hl : lookupOpcode (s.memRead s.pc) with
  | none =>
    rw [step_illegalOpcode s b hr hb hl]
    simp [fetchedLoopTurn, fetchByte, hl, takeIllegalOpcode]
  | some row =>
    rw [step_running s b hr hb, runStep, fetchWindow_eq]
    cases hf : row.format <;> simp [decode, fetchedLoopTurn, fetchWord, fetchByte, hl, hf]

/-! ## Starting a run (R90, R106, R180) -/

/-- The host's `run`, after a reset: the budget is handed over and tested. -/
theorem step_run {s : State} {b : Int} {rest : List HostMove} (hr : s.run = .halted) (he : s.everReset = true)
    (hm : s.hostMoves = .run b :: rest) : step s = .next (loopTest { s with hostMoves := rest, run := .running b }) := by
  rw [step_hostMove s _ rest hr hm]
  simp [hostMove, he, beginRun]

/-- Settles O40: the test ends the run at once. -/
theorem runWithNoBudgetDoesNothing : Obligations.RunWithNoBudgetDoesNothing := by
  intro s b rest hr he hm hb
  rw [step_run hr he hm, loopTest_exhausted _ b rfl hb, hr]

/-- Settles O41: the test lets the run go on. -/
theorem runResumesWhereTheLastHaltLeft : Obligations.RunResumesWhereTheLastHaltLeft := by
  intro s b rest hr he hm hb
  rw [step_run hr he hm, loopTest_positive _ b rfl hb]

/-! ## Costs (R76, R104, R123) -/

/-- An addition crosses a page exactly when the low byte carries, the wrap past 0xFFFF included (R123). -/
theorem crossed_add_eq_decide (base : Word) (index : Byte) :
    crossed base (base + zext16 index) = decide (256 ≤ base.toNat % 256 + index.toNat) := by
  have hb := base.isLt
  have hi := index.isLt
  rw [Bool.eq_iff_iff, crossed, bne_iff_ne, decide_eq_true_iff, ne_eq, ← BitVec.toNat_inj, highByte_toNat,
    highByte_toNat, BitVec.toNat_add, zext16_toNat]
  omega

/-- The unit the resolver charges is the unit counted on integers. -/
theorem crossUnit_eq_crossPenalty (base : Word) (index : Byte) : crossUnit base index = crossPenalty base index := by
  simp only [crossUnit, crossPenalty, crossed_add_eq_decide, decide_eq_true_eq]
  split <;> split <;> omega

/-- The page-cross unit of an instruction: none where its mode pays for no crossing. -/
def crossUnits (s : State) (i : Instr) : Int := (indexedBase s i).elim 0 fun p => crossPenalty p.1 p.2

/-- What an instruction debits: its fetches and the primitives after them; HLT's fetch is followed by `budget <- 0`. -/
def unitsDebited (s : State) : Instr → Int
  | .jmpAbs _ => 3
  | .jmpInd _ => 5
  | .jsr _ | .rts => 6
  | .nop => 2
  | i => (encode i).length + unitsAfterFetch s i

@[simp] theorem afterWrite_run (s : State) (r : Reg8) (v : Byte) (n : Nat) (k : Int) :
    (s.afterWrite r v n k).run = s.run.debit (n + k) := by
  rw [← RunState.debit_debit, ← fetched_run]
  cases r <;> rfl

theorem unitsDebited_of_destination {i : Instr} {r : Reg8} (s : State) (hd : destination i = some r) :
    unitsDebited s i = (encode i).length + unitsAfterFetch s i := by
  cases i with
  | jmpAbs | jmpInd | jsr | rts | nop => cases hd
  | _ => rfl

/-- Every instruction but HLT debits `unitsDebited`. -/
theorem exec_run {i : Instr} {s t : State} (hi : i ≠ .hlt) (h : exec i s = .next t) :
    t.run = s.run.debit (unitsDebited s i) := by
  cases hd : destination i with
  | some r =>
    rw [exec_writes s hd] at h
    cases h
    rw [afterWrite_run, unitsDebited_of_destination s hd]
  | none =>
    match i, hd with
    | .jmpAbs _, _ => rw [exec_jmpAbs] at h; cases h; rfl
    | .jmpInd _, _ => rw [exec_jmpInd] at h; cases h; rfl
    | .jsr _, _ => rw [exec_jsr] at h; cases h; rfl
    | .rts, _ => rw [exec_rts] at h; cases h; rfl
    | .nop, _ => rw [exec_nop] at h; cases h; rfl
    | .hlt, _ => exact absurd rfl hi

/-- The row of an instruction: its opcode selects it, and it holds the cost and whether a crossing is paid for. -/
theorem exists_row_costs (s : State) (i : Instr) :
    ∃ row, lookupOpcode ((encode i).headD 0x00) = some row ∧ row.penalty = (indexedBase s i).isSome ∧
      unitsDebited s i = row.baseCost + crossUnits s i := by
  cases i with
  | ldaAbsX | ldaAbsY | ldaIndY | ldxAbsY | ldyAbsX =>
    refine ⟨_, rfl, rfl, (unitsDebited_of_destination s rfl).trans ?_⟩
    simp only [unitsAfterFetch, crossUnits, indexedBase, crossUnit_eq_crossPenalty, Option.elim_some, encode, encodeOp16,
      List.length_cons, List.length_nil]
    omega
  | _ => exact ⟨_, rfl, rfl, rfl⟩

theorem head?_encode (i : Instr) : (encode i).head? = some ((encode i).headD 0x00) := by
  cases i <;> rfl

/-- Settles O34: the units debited are those of the instruction's row and the crossing. -/
theorem costsAreTheTableCosts : Obligations.CostsAreTheTableCosts := by
  intro i s t b hr hi h
  obtain ⟨row, hl, hpen, hcost⟩ := exists_row_costs s i
  obtain ⟨hrow, hop⟩ := lookupOpcode_eq_some_iff.mp hl
  refine ⟨row, hrow, hop ▸ head?_encode i, hpen, ?_⟩
  rw [exec_run hi h, hr, RunState.debit_running, hcost, Int.sub_sub, crossUnits]

end Sys2Proof.Machine
end

section
/-! SUPPORT. Proofs of the statements about the run loop (spec/40_execution_loop.md), part 2: the budget does not steer
execution (R105, R108). A turn of the loop is compared with the same turn made outside a run, where there is no budget. -/

namespace Sys2Proof.Machine

@[simp] theorem architectural_haltEntry (cause : HaltCause) (s : State) :
    (haltEntry cause s).architectural = s.architectural := by
  obtain ⟨r, h⟩ := haltEntry_eq cause s
  rw [h]
  rfl

@[simp] theorem architectural_loopTest (s : State) : (loopTest s).architectural = s.architectural := by
  obtain ⟨q, r, h⟩ := loopTest_eq s
  rw [h]
  rfl

/-- An illegal opcode moves PC; its fetch is charged to the budget, if there is one (R171). -/
theorem architectural_takeIllegalOpcode (s : State) :
    (takeIllegalOpcode s).architectural = (s.setPC (s.pc + 1)).architectural :=
  architectural_haltEntry _ (fetchByte s).2

theorem architectural_afterWrite (s : State) (r : Reg8) (v : Byte) (n : Nat) (k : Int) :
    (s.architectural.afterWrite r v n k).architectural = (s.afterWrite r v n k).architectural := by
  simp only [State.afterWrite, fetched_eq]
  cases r <;> rfl

/-- An instruction outside a run leaves what it leaves within one, budget and record apart. -/
theorem exec_architectural {i : Instr} {s t : State} (h : exec i s = .next t) :
    ∃ u, exec i s.architectural = .next u ∧ u.architectural = t.architectural := by
  cases hd : destination i with
  | some r =>
    rw [exec_writes s hd] at h
    cases h
    exact ⟨_, exec_writes_congr s s.architectural (fun _ => rfl) (fun _ => rfl) (fun _ => rfl) hd,
      architectural_afterWrite ..⟩
  | none =>
    match i, hd with
    | .jmpAbs _, _ => rw [exec_jmpAbs] at h; cases h; exact ⟨_, exec_jmpAbs .., rfl⟩
    | .jmpInd _, _ => rw [exec_jmpInd] at h; cases h; exact ⟨_, exec_jmpInd .., rfl⟩
    | .jsr _, _ => rw [exec_jsr] at h; cases h; exact ⟨_, exec_jsr .., rfl⟩
    | .rts, _ => rw [exec_rts] at h; cases h; exact ⟨_, exec_rts .., rfl⟩
    | .nop, _ => rw [exec_nop] at h; cases h; exact ⟨_, exec_nop .., rfl⟩
    | .hlt, _ => rw [exec_hlt] at h; cases h; exact ⟨_, exec_hlt .., rfl⟩

/-- What a turn of the loop leaves, budget and record apart, it leaves outside a run. -/
theorem step_architectural {s t : State} {b : Int} (hr : s.run = .running b) (hb : 0 < b) (h : step s = .next t) :
    ∃ u, runStep s.architectural = .next u ∧ u.architectural = t.architectural := by
  have hw : fetchWindow s.architectural = fetchWindow s := rfl
  cases step_cases s t h with
  | idle hh | host _ _ _ hh => exact absurd (hr.symm.trans hh) nofun
  | spent c hc hle =>
    cases hr.symm.trans hc
    omega
  | illegal c _ _ hl =>
    refine ⟨takeIllegalOpcode s.architectural, ?_,
      (architectural_takeIllegalOpcode _).trans (architectural_takeIllegalOpcode s).symm⟩
    rw [runStep, hw, fetchWindow_eq, decode_window_illegal hl]
  | instr c i rest v _ _ hd he =>
    obtain ⟨u, hu, hv⟩ := exec_architectural he
    refine ⟨loopTest u, ?_, by simpa using hv⟩
    rw [runStep, hw, hd]
    simp [hu, afterInstruction]

/-- Settles O49: both steps leave what the one turn outside a run leaves. -/
theorem theBudgetDoesNotSteerExecution : Obligations.TheBudgetDoesNotSteerExecution := by
  intro s s' t t' b b' hr hr' hb hb' hs h h'
  obtain ⟨u, hu, ht⟩ := step_architectural hr hb h
  obtain ⟨u', hu', ht'⟩ := step_architectural hr' hb' h'
  rw [← hs, hu, Host.Outcome.next.injEq] at hu'
  rw [← ht, hu', ht']

end Sys2Proof.Machine
end

section
/-! SUPPORT. Proofs of the statements about the run loop (spec/40_execution_loop.md), part 3: how a run ends (R91, R107,
R179). One step goes on with less budget or ends the run; a run is the first kind of step repeated, then one of the
second kind. -/

namespace Sys2Proof.Machine

/-! ## What one step of a run can do -/

/-- Each row costs at least 1 and, with the unit for a crossing where it can be due, at most 6 (R76, R107). -/
theorem row_cost_bounds :
    ∀ row ∈ opcodeTable, 1 ≤ row.baseCost ∧ row.baseCost + (if row.penalty then 1 else 0) ≤ 6 := by
  decide

theorem crossUnits_bounds (s : State) (i : Instr) :
    0 ≤ crossUnits s i ∧ crossUnits s i ≤ if (indexedBase s i).isSome then 1 else 0 := by
  unfold crossUnits
  cases indexedBase s i with
  | none => simp
  | some p =>
    simp only [Option.elim_some, Option.isSome_some, if_true, crossPenalty]
    split <;> omega

theorem unitsDebited_bounds (s : State) (i : Instr) : 1 ≤ unitsDebited s i ∧ unitsDebited s i ≤ 6 := by
  obtain ⟨row, hl, hpen, hcost⟩ := exists_row_costs s i
  have hrow := row_cost_bounds row (lookupOpcode_eq_some_iff.mp hl).1
  have hcross := crossUnits_bounds s i
  rw [← hpen] at hcross
  omega

/-- The step from `s` to `t` ends a run with record `r`, which is true of both; fewer than `b` units are left, and at most
5 are overspent. -/
structure EndsRun (s : State) (b : Int) (t : State) (r : HaltRecord) : Prop where
  halted : t.run = .halted
  record : t.haltRecord = some r
  justified : r.justified t
  endsFrom : r.endsRunFrom s
  overspent : -5 ≤ r.budgetLeft
  spent : r.budgetLeft < b

/-- A byte without a row ends the run, IllegalOpcode, with the budget less its fetch (R171). -/
theorem endsRun_illegal {s : State} {b : Int} (hr : s.run = .running b) (hb : 0 < b)
    (hl : lookupOpcode (s.memRead s.pc) = none) :
    EndsRun s b (takeIllegalOpcode s) ⟨.illegalOpcode (s.memRead s.pc) s.pc, b - 1⟩ := by
  rw [takeIllegalOpcode_running s b hr]
  exact {
    halted := rfl
    record := rfl
    justified := ⟨hl, rfl, rfl, by simp only; omega⟩
    endsFrom := ⟨rfl, rfl, hl⟩
    overspent := by simp only; omega
    spent := by simp only; omega }

/-- The first byte of a window that decodes to HLT is HLT's. -/
theorem memRead_pc_of_decode_hlt {s : State} {rest : List Byte} (hd : decode (fetchWindow s) = .ok (.hlt, rest)) :
    s.memRead s.pc = 0x02 := by
  have hw := encodeAfterDecodeGivesTheBytes _ _ _ hd
  rw [fetchWindow_eq] at hw
  exact (List.cons.inj hw).1

/-- HLT ends the run with nothing left (R161); the loop's test after it finds no run. -/
theorem endsRun_hlt {s t : State} {b : Int} {rest : List Byte} (hr : s.run = .running b) (hb : 0 < b)
    (hd : decode (fetchWindow s) = .ok (.hlt, rest)) (he : exec .hlt s = .next t) :
    EndsRun s b (loopTest t) ⟨.haltOpcode, 0⟩ := by
  rw [execHlt_running s b hr] at he
  cases he
  rw [loopTest_halted _ rfl]
  have hbyte : s.memRead (s.pc + 1 - 1) = 0x02 := by
    rw [BitVec.add_sub_cancel, memRead_pc_of_decode_hlt hd]
  exact {
    halted := rfl
    record := rfl
    justified := ⟨rfl, (congrArg (fun v => decode [v]) hbyte).trans rfl⟩
    endsFrom := ⟨rest, hd⟩
    overspent := by decide
    spent := hb }

/-- Any other instruction leaves a smaller positive budget, or ends the run, BudgetExhausted. -/
theorem continues_or_endsRun_instr {s t : State} {b : Int} {i : Instr} {rest : List Byte} (hr : s.run = .running b)
    (hb : 0 < b) (hi : i ≠ .hlt) (hd : decode (fetchWindow s) = .ok (i, rest)) (he : exec i s = .next t) :
    (∃ b', (loopTest t).run = .running b' ∧ 0 < b' ∧ b' < b) ∨ ∃ r, EndsRun s b (loopTest t) r := by
  obtain ⟨hlow, hhigh⟩ := unitsDebited_bounds s i
  have hrun : t.run = .running (b - unitsDebited s i) := by rw [exec_run hi he, hr, RunState.debit_running]
  by_cases hpos : 0 < b - unitsDebited s i
  · rw [loopTest_positive t _ hrun hpos]
    exact .inl ⟨_, hrun, hpos, by omega⟩
  · rw [loopTest_exhausted t _ hrun (by omega)]
    exact .inr ⟨⟨.budgetExhausted, b - unitsDebited s i⟩, {
      halted := rfl
      record := rfl
      justified := show b - unitsDebited s i ≤ 0 by omega
      endsFrom := ⟨i, rest, hd, hi⟩
      overspent := by simp only; omega
      spent := by simp only; omega }⟩

/-- A step of a run with budget left goes on with a smaller positive budget, or ends the run with a true record. -/
theorem step_continues_or_ends {s t : State} {b : Int} (hr : s.run = .running b) (hb : 0 < b) (h : step s = .next t) :
    (∃ b', t.run = .running b' ∧ 0 < b' ∧ b' < b) ∨ ∃ r, EndsRun s b t r := by
  cases step_cases s t h with
  | idle hh | host _ _ _ hh => exact absurd (hr.symm.trans hh) nofun
  | spent c hc hle =>
    cases hr.symm.trans hc
    omega
  | illegal c _ _ hl => exact .inr ⟨_, endsRun_illegal hr hb hl⟩
  | instr c i rest u _ _ hd he =>
    by_cases hi : i = .hlt
    · subst hi
      exact .inr ⟨_, endsRun_hlt hr hb hd he⟩
    · exact continues_or_endsRun_instr hr hb hi hd he

/-- Settles O48: what a step of a run can do, without the record's cause. -/
theorem stepsSpendBudgetAndOverspendAtMostFive : Obligations.StepsSpendBudgetAndOverspendAtMostFive := by
  intro s t b hr hb h
  exact (step_continues_or_ends hr hb h).imp_right fun ⟨r, hend⟩ =>
    ⟨hend.halted, r, hend.record, hend.overspent, hend.spent⟩

/-! ## The whole run -/

/-- While Running with budget left, a step answers (R13, R174). -/
theorem step_answers_of_running {s : State} {b : Int} (hr : s.run = .running b) (hb : 0 < b) :
    ∃ t, step s = .next t := by
  rw [step_running s b hr hb, runStep]
  split
  next i _ _ =>
    obtain ⟨t, he⟩ := exec_answers i s
    exact ⟨loopTest t, by rw [he, afterInstruction]⟩
  next => exact ⟨_, rfl⟩

theorem core_run_succ {s t : State} (h : step s = .next t) (n : Nat) :
    Host.Core.run core (n + 1) s = Host.Core.run core n t := by
  have hc : core.step s = .next t := h
  simp only [Host.Core.run, hc]

/-- The run in progress in `s`, with `b` units left, makes `n` steps to `u` and ends in the next one, from `u` to `t`, with
record `r`; it takes no more steps than it has units, is Running before each, and leaves what surrounds the core. -/
structure RunEnds (s : State) (b : Int) (n : Nat) (u t : State) (r : HaltRecord) : Prop where
  within : (n : Int) + 1 ≤ b
  before : Host.Core.run core n s = .next u
  after : Host.Core.run core (n + 1) s = .next t
  last : EndsRun u b t r
  hostMoves : t.hostMoves = s.hostMoves
  config : t.config = s.config
  running : ∀ j < n + 1, ∃ (v : State) (c : Int), Host.Core.run core j s = .next v ∧ v.run = .running c ∧ 0 < c

/-- A step that ends the run is the whole of it. -/
theorem RunEnds.of_step {s t : State} {b : Int} {r : HaltRecord} (hr : s.run = .running b) (hb : 0 < b)
    (h : step s = .next t) (hend : EndsRun s b t r) : RunEnds s b 0 s t r := by
  obtain ⟨hconfig, hmoves, -⟩ := step_of_running_keeps_surroundings hr h
  exact {
    within := by omega
    before := rfl
    after := core_run_succ h 0
    last := hend
    hostMoves := hmoves
    config := hconfig
    running := fun j hj => by
      obtain rfl : j = 0 := by omega
      exact ⟨s, b, rfl, hr, hb⟩ }

/-- A step that leaves a smaller budget, before a run that ends. -/
theorem RunEnds.cons {s s' u t : State} {b b' : Int} {n : Nat} {r : HaltRecord} (hr : s.run = .running b) (hb : 0 < b)
    (h : step s = .next s') (hlt : b' < b) (hend : RunEnds s' b' n u t r) : RunEnds s b (n + 1) u t r := by
  obtain ⟨hconfig, hmoves, -⟩ := step_of_running_keeps_surroundings hr h
  have hwithin := hend.within
  exact {
    within := by push_cast; omega
    before := (core_run_succ h n).trans hend.before
    after := (core_run_succ h (n + 1)).trans hend.after
    last := { hend.last with spent := hend.last.spent.trans hlt }
    hostMoves := hend.hostMoves.trans hmoves
    config := hend.config.trans hconfig
    running := fun j hj => by
      cases j with
      | zero => exact ⟨s, b, rfl, hr, hb⟩
      | succ j => rw [core_run_succ h j]; exact hend.running j (by omega) }

/-- Every run ends: by induction on a bound for its budget, which every step that goes on makes smaller. -/
theorem exists_runEnds {s : State} {b : Int} (bound : Nat) (hbound : b ≤ bound) (hr : s.run = .running b) (hb : 0 < b) :
    ∃ n u t r, RunEnds s b n u t r := by
  induction bound generalizing s b with
  | zero => omega
  | succ bound ih =>
    obtain ⟨t, h⟩ := step_answers_of_running hr hb
    obtain ⟨b', hr', hb', hlt⟩ | ⟨r, hend⟩ := step_continues_or_ends hr hb h
    · obtain ⟨n, u, t', r, hrest⟩ := ih (by omega) hr' hb'
      exact ⟨n + 1, u, t', r, hrest.cons hr hb h hlt⟩
    · exact ⟨0, s, t, r, .of_step hr hb h hend⟩

/-- Settles O52: the run that ends, with its budget as the bound. -/
theorem everyRunEndsWithAJustifiedRecord : Obligations.EveryRunEndsWithAJustifiedRecord := by
  intro s b hr hb
  obtain ⟨n, u, t, r, hrun⟩ := exists_runEnds b.toNat (by omega) hr hb
  obtain ⟨hhalted, hrecord, hjust, hfrom, hover, hspent⟩ := hrun.last
  exact ⟨n + 1, t, r, by omega, hrun.within, hrun.after, hhalted, hrecord, hjust, hover, hspent, hrun.hostMoves,
    hrun.config, ⟨u, hrun.before, hfrom⟩, hrun.running⟩

end Sys2Proof.Machine
end

section
/-! SUPPORT. Proofs of the statements about addressing modes (spec/41_addressing_modes.md): the page crossing of an index
(R123) and the addresses and costs of the zero-page modes (R112 to R114). -/

namespace Sys2Proof.Machine

/-- Settles O10: the high byte changes exactly when the low byte carries, and a byte plus 0 does not carry. -/
theorem pageCrossingIsTheCarryOutOfTheLowByte : Obligations.PageCrossingIsTheCarryOutOfTheLowByte := by
  refine ⟨crossed_add_eq_decide, fun base => ?_⟩
  have hlow : base.toNat % 256 < 256 := Nat.mod_lt _ (by decide)
  rw [crossed_add_eq_decide, decide_eq_false_iff_not]
  simpa using hlow

/-- The 8-bit sum, taken as an address, is the sum modulo 256 (R113, R114). -/
theorem zext16_add_toNat (d index : Byte) : (zext16 (d + index)).toNat = (d.toNat + index.toNat) % 256 := by
  rw [zext16_toNat, BitVec.toNat_add]

/-- A charge made within a run changes the budget only (R98). -/
theorem tick_of_running {s : State} {b : Int} (hr : s.run = .running b) (n : Int) :
    s.tick n = { s with run := .running (b - n) } := by
  rw [State.tick, hr, RunState.debit_running]

/-- Settles O11: the address is the operand, or an 8-bit sum with the index register; the addition is charged 1. -/
theorem zeroPageAddressesWrapInThePage : Obligations.ZeroPageAddressesWrapInThePage := by
  intro d s b hr
  have hcharge := tick_of_running hr 1
  exact ⟨zext16_toNat d, rfl, zext16_add_toNat d s.x, hcharge, zext16_add_toNat d s.y, hcharge⟩

end Sys2Proof.Machine
end

section
/-! SUPPORT. Proofs of the statements about loads (spec/42_load.md): the exact next state of each load, mode by mode, and
what a load or increment leaves as it was. All rest on `exec_writes`, the next state of every load and increment. -/

namespace Sys2Proof.Machine

/-! ## The next state of a load (R130 to R148) -/

/-- The state after a write, field by field. -/
theorem afterWrite_eq (s : State) (r : Reg8) (v : Byte) (n : Nat) (k : Int) :
    s.afterWrite r v n k = { s.withReg r v with
      flags := { s.flags with z := v == 0, n := v.getLsbD 7 }
      pc := s.pc + BitVec.ofNat 16 n
      run := s.run.debit (n + k) } := by
  rw [State.afterWrite, fetched_eq, tick_tick]
  cases r <;> rfl

/-- Within a run, the state after a write is the one R130 describes. -/
theorem afterWrite_of_running {s : State} {b : Int} (hr : s.run = .running b) (r : Reg8) (v : Byte) (n : Nat) (k : Int) :
    s.afterWrite r v n k = s.afterLoad r v (s.pc + BitVec.ofNat 16 n) (b - (n + k)) := by
  rw [afterWrite_eq, hr]
  rfl

/-- What a load writes is the byte `loadValue` names. -/
theorem writtenValue_of_loadValue {s : State} {i : Instr} {v : Byte} (hv : loadValue s i = some v) :
    writtenValue s i = v := by
  cases i with
  | inx | iny => cases hv
  | _ => simp only [writtenValue, hv, Option.getD_some]

/-- A load within a run: the byte, the length and the units debited determine the next state. -/
theorem exec_load {i : Instr} {r : Reg8} {s : State} {v : Byte} {b c : Int} (hr : s.run = .running b)
    (hd : destination i = some r) (hv : loadValue s i = some v) (hc : unitsDebited s i = c) :
    exec i s = .next (s.afterLoad r v (s.pc + BitVec.ofNat 16 (encode i).length) (b - c)) := by
  rw [exec_writes s hd, afterWrite_of_running hr, writtenValue_of_loadValue hv, ← unitsDebited_of_destination s hd, hc]

/-- The units debited, from the instruction's row of the opcode table. -/
theorem unitsDebited_of_lookupOpcode {i : Instr} {row : OpcodeRow} (s : State)
    (hl : lookupOpcode ((encode i).headD 0x00) = some row) : unitsDebited s i = row.baseCost + crossUnits s i := by
  obtain ⟨row', hl', -, hcost⟩ := exists_row_costs s i
  cases hl.symm.trans hl'
  exact hcost

/-- A load whose mode pays for a page crossing: its row's cost `c`, then the unit of R123. -/
theorem exec_load_crossing {i : Instr} {row : OpcodeRow} {r : Reg8} {s : State} {v index : Byte} {base : Word}
    {b c : Int} (hr : s.run = .running b) (hd : destination i = some r) (hv : loadValue s i = some v)
    (hl : lookupOpcode ((encode i).headD 0x00) = some row) (hc : row.baseCost = c)
    (hx : indexedBase s i = some (base, index)) :
    exec i s = .next
      (s.afterLoad r v (s.pc + BitVec.ofNat 16 (encode i).length) (b - c - crossPenalty base index)) := by
  have hunits : unitsDebited s i = c + crossPenalty base index := by
    rw [unitsDebited_of_lookupOpcode s hl, hc, crossUnits, hx, Option.elim_some]
  rw [Int.sub_sub, exec_load hr hd hv hunits]

/-! ## The loads, mode by mode -/

/-- Settles O16: the byte and the base of the index are the mode's, the cost is the row's. -/
theorem indexedAbsoluteLoadsLoadTheCell : Obligations.IndexedAbsoluteLoadsLoadTheCell :=
  fun _ _ _ hr => ⟨exec_load_crossing hr rfl rfl rfl rfl rfl, exec_load_crossing hr rfl rfl rfl rfl rfl,
    exec_load_crossing hr rfl rfl rfl rfl rfl, exec_load_crossing hr rfl rfl rfl rfl rfl⟩

/-- Settles O18: the base of the index is the pointer word. -/
theorem indirectYLoadOffsetsThePointerByY : Obligations.IndirectYLoadOffsetsThePointerByY :=
  fun _ _ _ hr => exec_load_crossing hr rfl rfl rfl rfl rfl

/-- Settles O12: the byte is the operand. -/
theorem immediateLoadsLoadTheOperand : Obligations.ImmediateLoadsLoadTheOperand :=
  fun _ _ _ hr => ⟨exec_load hr rfl rfl rfl, exec_load hr rfl rfl rfl, exec_load hr rfl rfl rfl⟩

/-- Settles O13: the byte is the cell at the operand in the zero page. -/
theorem zeroPageLoadsLoadTheCell : Obligations.ZeroPageLoadsLoadTheCell :=
  fun _ _ _ hr => ⟨exec_load hr rfl rfl rfl, exec_load hr rfl rfl rfl, exec_load hr rfl rfl rfl⟩

/-- Settles O14: the byte is the cell at the 8-bit sum in the zero page. -/
theorem indexedZeroPageLoadsLoadTheCell : Obligations.IndexedZeroPageLoadsLoadTheCell :=
  fun _ _ _ hr => ⟨exec_load hr rfl rfl rfl, exec_load hr rfl rfl rfl, exec_load hr rfl rfl rfl⟩

/-- Settles O15: the byte is the cell at the operand. -/
theorem absoluteLoadsLoadTheCell : Obligations.AbsoluteLoadsLoadTheCell :=
  fun _ _ _ hr => ⟨exec_load hr rfl rfl rfl, exec_load hr rfl rfl rfl, exec_load hr rfl rfl rfl⟩

/-- Settles O17: the byte is the cell at the pointer word. -/
theorem indirectXLoadFollowsThePointer : Obligations.IndirectXLoadFollowsThePointer :=
  fun _ _ _ hr => exec_load hr rfl rfl rfl

/-! ## All loads at once (R130) -/

/-- A load has a destination, which is none of the registers it reads. -/
theorem exists_unread_destination_of_loadValue {s : State} {i : Instr} {v : Byte} (hv : loadValue s i = some v) :
    ∃ r, destination i = some r ∧ readsReg i r = false := by
  cases i with
  | jmpAbs | jmpInd | jsr | rts | nop | hlt | inx | iny => cases hv
  | _ => exact ⟨_, rfl, rfl⟩

/-- Settles O26: the state after the write, and the destination is not read. -/
theorem loadsWriteOneRegisterAndItsFlags : Obligations.LoadsWriteOneRegisterAndItsFlags := by
  intro i s v hv
  obtain ⟨r, hd, hunread⟩ := exists_unread_destination_of_loadValue hv
  have hexec := exec_writes s hd
  rw [writtenValue_of_loadValue hv] at hexec
  refine ⟨r, _, hd, hunread, hexec, ?_, ?_, fun w => ?_⟩
  · rw [afterWrite_run]
    exact afterWrite_eq ..
  · rw [afterWrite_run, RunState.debit_eq_halted]
  · rw [exec_withReg w hunread hexec, if_pos hd]

/-! ## What a load or increment leaves as it was (R130, R162, R163) -/

/-- Another register than the one replaced keeps its value. -/
theorem withReg_reg_of_ne (s : State) {r r' : Reg8} (hne : r' ≠ r) (v : Byte) : (s.withReg r v).reg r' = s.reg r' := by
  cases r <;> cases r' <;> simp [State.withReg, State.reg] at hne ⊢

theorem afterWrite_reg_of_ne (s : State) {r r' : Reg8} (hne : r' ≠ r) (v : Byte) (n : Nat) (k : Int) :
    (s.afterWrite r v n k).reg r' = s.reg r' := by
  rw [afterWrite_eq, ← withReg_reg_of_ne s hne v]
  cases r' <;> rfl

@[simp] theorem memRead_afterWrite (s : State) (r : Reg8) (v : Byte) (n : Nat) (k : Int) (a : Word) :
    (s.afterWrite r v n k).memRead a = s.memRead a := by
  rw [afterWrite_eq]
  exact memRead_withReg s r v a

/-- Settles O27: the frame of the write, and what every instruction but HLT keeps. -/
theorem frameOfLoadsAndIncrements : Obligations.FrameOfLoadsAndIncrements := by
  intro i s t r hd h
  have hi : i ≠ .hlt := by
    rintro rfl
    cases hd
  obtain ⟨hrec, hrun⟩ := exec_keeps_running hi h
  obtain ⟨hconfig, hmoves, hreset⟩ := exec_keeps_surroundings h
  have hflags := exec_sameOthers h
  rw [exec_writes s hd] at h
  cases h
  exact ⟨fun r' hne => afterWrite_reg_of_ne s hne .., afterWrite_sp .., hflags, hconfig, hrun, hrec, hreset, hmoves,
    memRead_afterWrite s _ _ _ _⟩

end Sys2Proof.Machine
end

section
/-! SUPPORT. Proofs of the statements about control transfer (spec/43_control_transfer.md): the exact next state of each
transfer within a run, what the transfers, NOP and HLT leave as it was, and the return after a call. All rest on the
equations `exec_jmpAbs` to `exec_hlt`. -/

namespace Sys2Proof.Machine

/-! ## The next state of each transfer within a run (R151 to R154) -/

/-- Settles O19: the equation of JMP absolute, with the budget debited. -/
theorem jumpAbsoluteSetsPC : Obligations.JumpAbsoluteSetsPC := by
  intro a s b hr
  rw [exec_jmpAbs, hr, RunState.debit_running]

/-- Settles O20: the equation of JMP indirect, the word at the pointer written as its two bytes (R43). -/
theorem jumpIndirectSetsPCFromMemory : Obligations.JumpIndirectSetsPCFromMemory := by
  intro p s b hr
  rw [exec_jmpInd, hr, RunState.debit_running, State.memReadWord, wordOf]

/-- Settles O21: the equation of JSR, the stack address written out (R22). -/
theorem callPushesTheNextAddress : Obligations.CallPushesTheNextAddress := by
  intro a s b hr
  rw [exec_jsr, hr, RunState.debit_running, stackAddr, stackBase]

/-- Settles O22: the equation of RTS, the stack address and the word there written out (R22, R43). -/
theorem returnPopsTheAddress : Obligations.ReturnPopsTheAddress := by
  intro s b hr p
  rw [exec_rts, hr, RunState.debit_running, State.memReadWord, wordOf, stackAddr, stackBase]

/-! ## What the transfers, NOP and HLT leave as it was (R150, R160, R161) -/

/-- An instruction that writes neither a general register nor memory changes PC, the run state and the halt record, and
RTS also SP. -/
theorem exec_eq_of_no_destination {i : Instr} {s t : State} (hd : destination i = none) (hi : ∀ a, i ≠ .jsr a)
    (h : exec i s = .next t) :
    ∃ pc q r, t = { s with
      pc := pc, sp := if i = .rts then s.sp - 2 else s.sp, run := q, haltRecord := r } := by
  match i, hd with
  | .jmpAbs _, _ => rw [exec_jmpAbs] at h; cases h; exact ⟨_, _, _, rfl⟩
  | .jmpInd _, _ => rw [exec_jmpInd] at h; cases h; exact ⟨_, _, _, rfl⟩
  | .jsr a, _ => exact absurd rfl (hi a)
  | .rts, _ => rw [exec_rts] at h; cases h; exact ⟨_, _, _, rfl⟩
  | .nop, _ => rw [exec_nop] at h; cases h; exact ⟨_, _, _, rfl⟩
  | .hlt, _ => rw [exec_hlt] at h; cases h; exact ⟨_, _, _, rfl⟩

/-- Settles O28: of the fields that can change, SP is as said, and the run state and the record are HLT's. -/
theorem frameOfTransfersNopAndHalt : Obligations.FrameOfTransfersNopAndHalt := by
  intro i s t hd hi h
  have hrun := fun hne : i ≠ .hlt => exec_keeps_running hne h
  obtain ⟨pc, q, r, rfl⟩ := exec_eq_of_no_destination hd hi h
  exact ⟨rfl, rfl, rfl, rfl, rfl, rfl, rfl, rfl, hrun, fun _ => rfl⟩

/-! ## The call, and the return after it (R151, R152, R155) -/

/-- Settles O29: the call writes one word of memory, and is not HLT. -/
theorem frameOfCall : Obligations.FrameOfCall := by
  intro target s t h
  obtain ⟨hrec, hrun⟩ := exec_keeps_running (i := .jsr target) nofun h
  rw [exec_jsr] at h
  cases h
  exact ⟨memRead_memWriteWord_low s (stackAddr s.sp) (s.pc + 3),
    memRead_memWriteWord_high s (stackAddr s.sp) (s.pc + 3),
    fun _ hlow hhigh => memRead_memWriteWord_other s (s.pc + 3) hlow hhigh,
    rfl, rfl, rfl, rfl, rfl, rfl, hrun, hrec, rfl, rfl⟩

/-- After a call the word at the caller's stack address is the address of the next instruction. -/
theorem memReadWord_stackAddr_of_jsr {target : Word} {s t : State} (h : exec (.jsr target) s = .next t) :
    t.memReadWord (stackAddr s.sp) = s.pc + 3 := by
  obtain ⟨hlow, hhigh, -⟩ := frameOfCall target s t h
  rw [State.memReadWord, hlow, hhigh, wordOf_high_low]

/-- Settles O35: RTS takes SP back to the caller's, whatever it was, and finds there the word the call stored. -/
theorem returnAfterCallResumesAfterIt : Obligations.ReturnAfterCallResumesAfterIt := by
  intro target s t h
  obtain ⟨-, -, -, hsp, ha, hx, hy, hflags, -⟩ := frameOfCall target s t h
  have hback : t.sp - 2 = s.sp := by rw [hsp, BitVec.add_sub_cancel]
  refine ⟨_, exec_rts t, ?_, hback, ha, hx, hy, hflags⟩
  rw [hback]
  exact memReadWord_stackAddr_of_jsr h

end Sys2Proof.Machine
end

section
/-! SUPPORT. Proofs of the statements about NOP, HLT and the increments (spec/44_nop_halt_increment.md): the exact next
state of each within a run. They rest on `exec_nop`, `execHlt_running` and `exec_writes`. -/

namespace Sys2Proof.Machine

/-- Settles O23: the equation of NOP, with the budget debited. -/
theorem nopOnlyAdvances : Obligations.NopOnlyAdvances := by
  intro s b hr
  rw [exec_nop, hr, RunState.debit_running]

/-- Settles O24: the equation of HLT within a run. -/
theorem haltEndsTheRun : Obligations.HaltEndsTheRun := execHlt_running

/-- Within a run, an instruction with a destination leaves the state of R130, with the value it writes. -/
theorem exec_writes_of_running {i : Instr} {r : Reg8} {s : State} {b : Int} (hr : s.run = .running b)
    (hd : destination i = some r) :
    exec i s = .next
      (s.afterLoad r (writtenValue s i) (s.pc + BitVec.ofNat 16 (encode i).length) (b - unitsDebited s i)) := by
  rw [exec_writes s hd, afterWrite_of_running hr, unitsDebited_of_destination s hd]

/-- Settles O25: INX writes X + 1 to X and INY writes Y + 1 to Y; each has one byte, and one unit after its fetch. -/
theorem incrementsAddOneAndSetFlags : Obligations.IncrementsAddOneAndSetFlags :=
  fun _ _ hr => ⟨exec_writes_of_running (i := .inx) hr rfl, exec_writes_of_running (i := .iny) hr rfl⟩

end Sys2Proof.Machine
end

section
/-! SUPPORT. Proofs of the statements about exceptions (spec/60_exceptions.md): what taking IllegalOpcode leaves, and when
a step answers. -/

namespace Sys2Proof.Machine

/-- Settles O39: a byte off the list has no row, so the step takes IllegalOpcode, and does so before any budget test. -/
theorem illegalOpcodeChangesNothingElse : Obligations.IllegalOpcodeChangesNothingElse := by
  intro s b hr hb hop
  rw [step_illegalOpcode s b hr hb (lookupOpcode_eq_none hop), takeIllegalOpcode_running s b hr]

/-- A move of the host answers, but for `run` before the first reset (R37). -/
theorem hostMove_answers_or_refuses (m : HostMove) (s : State) :
    (∃ t, hostMove m s = .next t) ∨
    (hostMove m s = .refused .runBeforeReset ∧ s.everReset = false ∧ ∃ b, m = .run b) := by
  cases m with
  | reset | memReset | writeByte | writeWord => exact .inl ⟨_, rfl⟩
  | run b =>
    cases he : s.everReset with
    | true => exact .inl ⟨beginRun b s, by simp [hostMove, he]⟩
    | false => exact .inr ⟨by simp [hostMove, he], rfl, b, rfl⟩

/-- While Halted, a step answers unless the host's next move is `run` before the first reset. -/
theorem step_answers_or_refuses_of_halted {s : State} (hr : s.run = .halted) :
    (∃ t, step s = .next t) ∨
    (step s = .refused .runBeforeReset ∧ s.everReset = false ∧ ∃ b rest, s.hostMoves = .run b :: rest) := by
  cases hm : s.hostMoves with
  | nil => exact .inl ⟨s, step_idle s hr hm⟩
  | cons m rest =>
    rw [step_hostMove s m rest hr hm]
    obtain hnext | ⟨href, he, b, rfl⟩ := hostMove_answers_or_refuses m { s with hostMoves := rest }
    · exact .inl hnext
    · exact .inr ⟨href, he, b, rest, rfl⟩

/-- Settles O47: the step by the run state and the budget; an idle core and a spent run by their equations. -/
theorem stepsAnswerUnlessRunPrecedesReset : Obligations.StepsAnswerUnlessRunPrecedesReset := by
  refine ⟨fun s => ?_, step_idle, step_spent⟩
  cases hr : s.run with
  | halted => exact (step_answers_or_refuses_of_halted hr).imp_right fun ⟨href, hmove⟩ => ⟨href, rfl, hmove⟩
  | running b =>
    by_cases hb : 0 < b
    · exact .inl (step_answers_of_running hr hb)
    · exact .inl ⟨_, step_spent s b hr (by omega)⟩

end Sys2Proof.Machine
end

section
/-! SUPPORT. Proofs of the statements about reset and hazards (spec/70_reset_and_hazards.md): the state reset leaves, and
the invariant it begins. An instruction is shown to keep `Inv` outside a run (`State.architectural`), where the clause
about the budget is empty; the loop's test, which every turn ends with, adds that clause back. -/

namespace Sys2Proof.Machine

/-! ## Reset (R200) -/

/-- The reset state has the invariant, whatever the configuration and the moves left to the host. -/
theorem inv_resetWith (cfg : Config) (moves : List HostMove) : Inv (State.resetWith cfg moves) where
  reset := rfl
  memory := Memory.wf_nil cfg.fill
  stack := rfl
  flags := ⟨rfl, rfl, rfl, rfl, rfl⟩
  budget := nofun

/-- Settles O50: reset of the core leaves the reset state of its own configuration. -/
theorem invHoldsAfterReset : Obligations.InvHoldsAfterReset :=
  ⟨inv_resetWith, inv_resetWith _ _, fun s => resetCore_eq s ▸ inv_resetWith s.config s.hostMoves⟩

/-- Settles O43: the step leaves the reset state of the configuration there was, with the host's remaining moves. -/
theorem resetGivesTheResetState : Obligations.ResetGivesTheResetState := by
  intro s rest hr hm
  exact ⟨State.resetWith s.config rest, step_hostMove s _ rest hr hm, rfl, rfl, rfl, rfl, rfl, rfl,
    (inv_resetWith s.config rest).flags, rfl, rfl, rfl, memRead_resetWith s.config rest, rfl, rfl, rfl, rfl⟩

/-! ## The invariant and the budget (R91) -/

/-- Outside a run the clause about the budget is empty; the others do not see the run state. -/
theorem Inv.architectural {s : State} (hs : Inv s) : Inv s.architectural := { hs with budget := nofun }

/-- A run the loop's test lets go on has budget left. -/
theorem budget_pos_of_loopTest_running {s : State} {b : Int} (h : (loopTest s).run = .running b) : 0 < b := by
  obtain ⟨heq, hpos⟩ | ⟨c, -, -, heq⟩ := loopTest_cases s
  · exact hpos b (heq ▸ h)
  · rw [heq] at h
    cases h

/-- The loop's test restores the clause about the budget. -/
theorem inv_loopTest {s : State} (hs : Inv s.architectural) : Inv (loopTest s) := by
  have harch : Inv (loopTest s).architectural := (architectural_loopTest s).symm ▸ hs
  exact { harch with budget := fun _ => budget_pos_of_loopTest_running }

/-! ## What an instruction keeps (R22, R28, R210) -/

@[simp] theorem haltEntry_mem (cause : HaltCause) (s : State) : (haltEntry cause s).mem = s.mem := by
  obtain ⟨r, h⟩ := haltEntry_eq cause s
  rw [h]

/-- Only a call writes memory, and a word write keeps the canonical form. -/
theorem exec_keeps_memory_wf {i : Instr} {s t : State} (hs : Memory.wf s.config.fill s.mem = true)
    (h : exec i s = .next t) : Memory.wf t.config.fill t.mem = true := by
  cases exec_cases i s t h with
  | call => exact memWriteWord_wf (fetched 3 s) _ _ hs
  | _ => simpa using hs

theorem add_two_even {p : Byte} (hp : p.toNat % 2 = 0) : (p + 2).toNat % 2 = 0 := by bv_omega

theorem sub_two_even {p : Byte} (hp : p.toNat % 2 = 0) : (p - 2).toNat % 2 = 0 := by bv_omega

/-- SP moves by 2 in JSR and RTS, the wrap modulo 256 included, and in no other instruction (R22). -/
theorem exec_keeps_sp_even {i : Instr} {s t : State} (hs : s.sp.toNat % 2 = 0) (h : exec i s = .next t) :
    t.sp.toNat % 2 = 0 := by
  cases hi : usesSP i with
  | false => rwa [(exec_withSP s.sp hi h).1]
  | true =>
    match i, hi with
    | .jsr _, _ => rw [exec_jsr] at h; cases h; exact add_two_even hs
    | .rts, _ => rw [exec_rts] at h; cases h; exact sub_two_even hs

/-- An instruction keeps all of the invariant but the clause about the budget, which the loop tests after it. -/
theorem exec_keeps_inv_architectural {i : Instr} {s t : State} (hs : Inv s) (h : exec i s = .next t) :
    Inv t.architectural := by
  obtain ⟨-, -, hreset⟩ := exec_keeps_surroundings h
  have hmem := exec_keeps_memory_wf hs.memory h
  have hsp := exec_keeps_sp_even hs.stack h
  have hflags := Flags.othersClear_of_sameOthers (exec_sameOthers h) hs.flags
  exact ⟨hreset.trans hs.reset, hmem, hsp, hflags, nofun⟩

/-! ## What every step keeps -/

/-- Each of the host's five moves keeps the invariant (R15). -/
theorem hostMove_keeps_inv {m : HostMove} {s t : State} (hs : Inv s) (h : hostMove m s = .next t) : Inv t := by
  obtain ⟨-, rfl⟩ | ⟨-, rfl⟩ | ⟨a, v, -, rfl⟩ | ⟨a, v, -, rfl⟩ | ⟨b, -, -, rfl⟩ := hostMove_cases m s t h
  · exact inv_resetWith s.config s.hostMoves
  · exact { hs with memory := Memory.wf_nil s.config.fill }
  · exact { hs with memory := memWrite_wf s a v hs.memory }
  · exact { hs with memory := memWriteWord_wf s a v hs.memory }
  · exact inv_loopTest (s := { s with run := .running b }) hs.architectural

/-- Settles O51: by what the step does; a run with its budget spent is the one case the invariant itself excludes. -/
theorem everyStepKeepsInv : Obligations.EveryStepKeepsInv := by
  intro s t hs h
  cases step_cases s t h with
  | idle => exact hs
  | host m rest t hr hm hmove => exact hostMove_keeps_inv (s := { s with hostMoves := rest }) { hs with } hmove
  | spent b hr hb => exact absurd (hs.budget b hr) (not_lt.mpr hb)
  | illegal b hr =>
    rw [takeIllegalOpcode_running s b hr]
    exact { hs with budget := nofun }
  | instr b i rest u hr hb hd he => exact inv_loopTest (exec_keeps_inv_architectural hs he)

end Sys2Proof.Machine
end
